-- ==== Sys2Proof/Word.lean ====
section
/-! DEFINITION. The word types of the block (00_scope.md R9; widths from 10_state.md R22 to R24). -/

namespace Sys2Proof

/-- A byte: 8 bits, unsigned, bit 0 the least significant (R9). -/
abbrev Byte := BitVec 8

/-- The response data width, `RSP_DATA[31:0]` (R24). -/
abbrev Word := BitVec 32

/-- A command word, `CMD[7:0]` (R24, R60). -/
abbrev CommandWord := BitVec 8

/-- A byte offset of the header space, 0 to 15 (R40, R62). The type has no offset outside the space. -/
abbrev Offset := BitVec 4

end Sys2Proof
end

