-- ==== Sys2Proof/Config.lean ====
section
/-! DEFINITION. What an implementation fixes and the values the spec leaves open. Each constant here has no body, so no proof
can see its value and a claim holds whatever it is. -/

namespace Sys2Proof

/-- How far `LEN_W` exceeds its least legal value 5 (00_scope.md R8). No value is given: 92_eei_decisions.md D3 leaves it OPEN.
DESIGN CHOICE, safe (assumption 1). -/
opaque Config.lenWBeyondFive : Nat

/-- `LEN_W`, the width in bits of `IN_LEN`: any natural number that is at least 5 (R8, 93_implementation_defined.md U6). -/
def Config.lenW : Nat := 5 + Config.lenWBeyondFive

/-- What the host shows on `IN_LEN` for a buffer of `n` bytes that is too long for the port, before the bound of
70_reset_and_hazards.md R235 duty 1 is put on it (see `lengthShown`). A free value: DESIGN CHOICE, safe (assumption 10). -/
opaque Config.longLength : Nat → Nat

/-- What the host drives on the lane of an offset its buffer does not reach: "any values" (R235 duty 2).
A free value: DESIGN CHOICE, safe (assumption 10). -/
opaque Config.undrivenByte : Offset → Byte

end Sys2Proof
end

