-- ==== Sys2Proof/Syntax.lean ====
section
/-! DEFINITION. The operations of the block, one constructor per row of spec/opcode_table.json (30_encoding.md R61). -/

namespace Sys2Proof

/-- The eleven operations. Only READ_BYTE has an operand (R62); the header bytes and `IN_LEN` are implicit operands of all of
them (R63). A reserved command word is no `Instr`: the decoder rejects it by name and the block answers `BAD_OP` (R64, R65). -/
inductive Instr where
  /-- DECODE, op 0x0 (R100). -/
  | decode
  /-- IS_MAGIC_VALID, op 0x1 (R121). -/
  | isMagicValid
  /-- PRG_ROM_DESC, op 0x2 (R142). -/
  | prgRomDesc
  /-- CHR_ROM_DESC, op 0x3 (R143). -/
  | chrRomDesc
  /-- PRG_RAM_KB, op 0x4 (R161). -/
  | prgRamKb
  /-- TV_STD_A, op 0x5 (R163). -/
  | tvStdA
  /-- TV_STD_B, op 0x6 (R165). -/
  | tvStdB
  /-- PRG_RAM_PRESENT, op 0x7 (R167). -/
  | prgRamPresent
  /-- NO_BUS_CONFLICTS, op 0x8 (R169). -/
  | noBusConflicts
  /-- IS_TAIL_VALID, op 0x9 (R191). -/
  | isTailValid
  /-- READ_BYTE idx, op 0xA (R104). All 16 offsets are legal (R62). -/
  | readByte (idx : Offset)
  deriving DecidableEq, Repr

end Sys2Proof
end

