-- ==== Sys2Proof/WellFormed.lean ====
section
/-! DEFINITION. Which command words and instructions are legal (30_encoding.md R62, R64 to R66). -/

namespace Sys2Proof

/-- Check 1 of a command word: its op is not reserved (R64: ops 0xB to 0xF are). -/
def opAssigned (w : CommandWord) : Bool := decide ((w.extractLsb' 0 4).toNat ≤ 0xA)

/-- Check 2 of a command word: its idx is 0, unless its op is READ_BYTE's 0xA (R62, R65). -/
def idxAllowed (w : CommandWord) : Bool :=
  w.extractLsb' 0 4 == 0xA#4 || w.extractLsb' 4 4 == 0#4

/-- A legal command word (R66). It is written from the rules and not from the decoder, which is held against it. -/
def legalWord (w : CommandWord) : Bool := opAssigned w && idxAllowed w

/-- The fields of an instruction are in range. An `Instr` carries this in its type: no operation but READ_BYTE has an operand,
and READ_BYTE's is a 4-bit offset, of which all 16 values are legal (R62). Each constructor is named, so that an instruction
with a narrower operand could not slip past. -/
def Instr.wf : Instr → Bool
  | .decode => true
  | .isMagicValid => true
  | .prgRomDesc => true
  | .chrRomDesc => true
  | .prgRamKb => true
  | .tvStdA => true
  | .tvStdB => true
  | .prgRamPresent => true
  | .noBusConflicts => true
  | .isTailValid => true
  | .readByte idx => decide (idx.toNat ≤ 15)

end Sys2Proof
end

