-- ==== Sys2Proof/Decode.lean ====
section
/-! DEFINITION. The command decoder and the encoder (30_encoding.md R60 to R67). -/

namespace Sys2Proof

/-- Why a command word is reserved. Both kinds are answered `BAD_OP` (60_exceptions.md R201). -/
inductive Reserved where
  /-- The op is 0xB to 0xF (R64). -/
  | op (op idx : BitVec 4)
  /-- The op is 0x0 to 0x9 and the idx is not 0 (R65). -/
  | idx (op idx : BitVec 4)
  deriving DecidableEq, Repr

/-- The field `op = CMD[3:0]` (R60). -/
def cmdOp (w : CommandWord) : BitVec 4 := w.extractLsb' 0 4

/-- The field `idx = CMD[7:4]` (R60). -/
def cmdIdx (w : CommandWord) : BitVec 4 := w.extractLsb' 4 4

/-- An operation without an operand: its idx must be 0 (R62, R65). -/
def decodeNoOperand (w : CommandWord) (i : Instr) : Except Reserved Instr :=
  if cmdIdx w = 0#4 then .ok i else .error (.idx (cmdOp w) (cmdIdx w))

/-- The decoder, total on all 256 words (R66): the opcode map of R61 and the checks of R70. -/
def decodeCommand (w : CommandWord) : Except Reserved Instr :=
  match (cmdOp w).toNat with
  | 0x0 => decodeNoOperand w .decode
  | 0x1 => decodeNoOperand w .isMagicValid
  | 0x2 => decodeNoOperand w .prgRomDesc
  | 0x3 => decodeNoOperand w .chrRomDesc
  | 0x4 => decodeNoOperand w .prgRamKb
  | 0x5 => decodeNoOperand w .tvStdA
  | 0x6 => decodeNoOperand w .tvStdB
  | 0x7 => decodeNoOperand w .prgRamPresent
  | 0x8 => decodeNoOperand w .noBusConflicts
  | 0x9 => decodeNoOperand w .isTailValid
  | 0xA => .ok (.readByte (cmdIdx w))
  | _ => .error (.op (cmdOp w) (cmdIdx w))

/-- The op field of an instruction's word (the opcode map of R61). -/
def Instr.opField : Instr → BitVec 4
  | .decode => 0x0#4
  | .isMagicValid => 0x1#4
  | .prgRomDesc => 0x2#4
  | .chrRomDesc => 0x3#4
  | .prgRamKb => 0x4#4
  | .tvStdA => 0x5#4
  | .tvStdB => 0x6#4
  | .prgRamPresent => 0x7#4
  | .noBusConflicts => 0x8#4
  | .isTailValid => 0x9#4
  | .readByte _ => 0xA#4

/-- The idx field of an instruction's word: READ_BYTE's offset, else 0 (R62). -/
def Instr.idxField : Instr → BitVec 4
  | .decode => 0#4
  | .isMagicValid => 0#4
  | .prgRomDesc => 0#4
  | .chrRomDesc => 0#4
  | .prgRamKb => 0#4
  | .tvStdA => 0#4
  | .tvStdB => 0#4
  | .prgRamPresent => 0#4
  | .noBusConflicts => 0#4
  | .isTailValid => 0#4
  | .readByte idx => idx

/-- The encoder: idx in the high half and op in the low half, `(idx << 4) | op` (R60). -/
def encode (i : Instr) : CommandWord := i.idxField ++ i.opField

/-- The command word that an opcode-table word of `nbits` bits stands for. A command is one 8-bit word (R60, R67), so the bits
above 8 belong to no instruction (assumption 20), and bits above `nbits` are 0. -/
def commandOfTable (nbits w : Nat) : CommandWord := BitVec.ofNat 8 (w % 2 ^ nbits)

/-- What the decoder reads from an opcode-table word (none for a reserved word). -/
def decodeTableWord (nbits w : Nat) : Option Instr :=
  match decodeCommand (commandOfTable nbits w) with
  | .ok i => some i
  | .error _ => none

end Sys2Proof
end

