-- ==== Sys2Proof/Machine/State.lean ====
section
/-! DEFINITION. The state of the machine: the ports of the block (10_state.md R22 to R24), which are its whole interface (R29).
The block holds nothing else (R20, R21, R26, R29 to R31): the response it drives is a function of the inputs. -/

namespace Sys2Proof.Machine

/-- The header space as (offset, byte) cells (20_memory.md R40). Its canonical form is `Memory.wf` in Machine/Ops.lean. -/
abbrev Memory := List Host.Cell

/-- How the machine stops with a fault. The type has NO constructor, so nothing raises one: "The block has no fault, stuck or
refused outcome while the host meets its duties" (60_exceptions.md R214). `TRUNCATED` and `BAD_OP` are responses. -/
inductive Fault
  deriving DecidableEq, Repr

/-- Where the machine has no step. -/
inductive Refusal where
  /-- An instruction without a meaning yet; only an arm of `exec` may answer so, and none does. Safe: the machine stops. -/
  | notModelled (mnemonic : String)
  /-- `fetchCommand` raises it where the host breaks duty 3 of 70_reset_and_hazards.md R235, so that the inputs change while the
  command is answered: "What the block does when duty 3 is broken is not specified", and 93_implementation_defined.md U3 gives
  the treatment `refuse`. Safe: the machine stops, and no claim is made (assumption 6). -/
  | inputsChanged
  deriving DecidableEq, Repr

/-- The ports, and one mark of the model's own. -/
structure State where
  /-- `IN_HDR[127:0]` as the 16 bytes of the header space (R22, R40; assumption 8). `State.inHdr` is the port as bits. -/
  hdr : Memory
  /-- `IN_LEN`, unsigned (R23). A number below `2 ^ Config.lenW` (`State.inv` in Safety.lean; assumption 9). -/
  inLen : Nat
  /-- `CMD[7:0]` (R24). -/
  cmd : CommandWord
  /-- `RSP_STATUS[1:0]` (R24, R25). -/
  rspStatus : BitVec 2
  /-- `RSP_DATA[31:0]` (R24). -/
  rspData : Word
  /-- THE MODEL'S OWN: the host holds `CMD`, `IN_HDR` and `IN_LEN` stable while the presented command is answered
  (R235 duty 3; assumption 6). -/
  inputsHeld : Bool
  deriving DecidableEq, Repr

/-- The machine after reset. The spec gives no reset value for any port (R32, R231): the inputs are host-driven and the outputs
are unspecified and not observed. Every value here is a DESIGN CHOICE, unsafe (assumptions 2 to 6). -/
def State.reset : State where
  hdr := []
  inLen := 0
  cmd := 0x00#8
  rspStatus := 0#2
  rspData := 0#32
  inputsHeld := true

end Sys2Proof.Machine
end

