-- ==== Sys2Proof/Machine/Ops.lean ====
section
/-! DEFINITION. The operations over the header space, the ports and the response: every read and write of State goes through
them. -/

namespace Sys2Proof.Machine

/-! ## The header space (20_memory.md R40, R41) -/

/-- What an offset with no cell reads as. The spec gives the undriven port no value (10_state.md R32): DESIGN CHOICE, unsafe
(assumption 2). -/
def unlistedByte : Byte := 0x00#8

/-- The byte at a key of the cell list. -/
def Memory.lookup : Memory → Nat → Byte
  | [], _ => unlistedByte
  | (k, b) :: m, a => if k = a then b else Memory.lookup m a

/-- `MemRead(i, 1)`, the only memory primitive of the block (R40, 00_scope.md R10). -/
def Memory.read (m : Memory) (i : Offset) : Byte := Memory.lookup m i.toNat

/-- Put a byte at a key and keep the canonical form: keys rising, nothing listed that equals `unlistedByte`. -/
def Memory.put : Memory → Nat → Byte → Memory
  | [], a, v => if v = unlistedByte then [] else [(a, v)]
  | (k, b) :: m, a, v =>
    if a < k then
      if v = unlistedByte then (k, b) :: m else (a, v) :: (k, b) :: m
    else if a = k then
      if v = unlistedByte then m else (a, v) :: m
    else (k, b) :: Memory.put m a v

/-- The HOST drives one byte lane of `IN_HDR`. The block itself never writes: "no mutation of input" (R40). -/
def Memory.write (m : Memory) (i : Offset) (v : Byte) : Memory := Memory.put m i.toNat v

/-- The canonical form from the key `lo` on: keys strictly rising, all in the 16 offsets, none listing the unlisted byte. -/
def Memory.wfFrom : Nat → Memory → Bool
  | _, [] => true
  | lo, (k, b) :: m => decide (lo ≤ k) && decide (k < 16) && b != unlistedByte && Memory.wfFrom (k + 1) m

/-- The canonical form of the header space. -/
def Memory.wf (m : Memory) : Bool := Memory.wfFrom 0 m

/-- Write the lanes below `n`, from the highest down, into a header space. -/
def Memory.fill (f : Offset → Byte) : Nat → Memory → Memory
  | 0, m => m
  | n + 1, m => Memory.fill f n (Memory.write m (BitVec.ofNat 4 n) (f (BitVec.ofNat 4 n)))

/-- The header space with the given byte at each of the 16 offsets. It is irreducible so that no unification unfolds the 16
writes; `Memory.read_ofLanes` and `Memory.wf_ofLanes` say what it is. -/
@[irreducible] def Memory.ofLanes (f : Offset → Byte) : Memory := Memory.fill f 16 []

/-! ## Bit fields -/

/-- `zext_32(v)` (R9, 30_encoding.md R71). -/
def zext32 {n : Nat} (v : BitVec n) : Word := v.setWidth 32

/-- Byte lane `i` of a 128-bit bus: bits `8*i+7 : 8*i` (10_state.md R22). -/
def busByte (bus : BitVec 128) (i : Offset) : Byte := bus.extractLsb' (8 * i.toNat) 8

/-- The 128-bit bus with the given byte on each lane: offset 15 in the top bits, offset 0 in the lowest (R22). -/
def packBus (f : Offset → Byte) : BitVec 128 :=
  f 15#4 ++ f 14#4 ++ f 13#4 ++ f 12#4 ++ f 11#4 ++ f 10#4 ++ f 9#4 ++ f 8#4 ++ f 7#4 ++ f 6#4 ++ f 5#4 ++ f 4#4 ++ f 3#4 ++ f 2#4 ++ f 1#4 ++ f 0#4

/-! ## Reading the inputs -/

/-- `H[i]`, the header byte at offset `i` (R10). -/
def State.byteAt (s : State) (i : Offset) : Byte := Memory.read s.hdr i

/-- `IN_HDR[127:0]`, the input port as bits (R22). -/
def State.inHdr (s : State) : BitVec 128 := packBus s.byteAt

/-! ## What the host does to the inputs (70_reset_and_hazards.md R235) -/

/-- The host drives `IN_HDR` with 128 bits (R22). -/
def State.driveHdr (s : State) (bus : BitVec 128) : State := { s with hdr := Memory.ofLanes (busByte bus) }

/-- The number the host shows on `IN_LEN` for a buffer of `n` bytes: `n`, or where the port is too narrow any value that is at
least 16 and fits it (R23, R235 duty 1; assumption 10). -/
def lengthShown (n : Nat) : Nat :=
  if n < 2 ^ Config.lenW then n else 16 + Config.longLength n % (2 ^ Config.lenW - 16)

/-- The host drives `IN_LEN` for a buffer of `n` bytes. -/
def State.driveLen (s : State) (n : Nat) : State := { s with inLen := lengthShown n }

/-- What duties 1 and 2 of R235 put on lane `i` for a buffer: its byte at that offset, or any value past its end. -/
def laneOf (buf : List Byte) (i : Offset) : Byte := buf.getD i.toNat (Config.undrivenByte i)

/-- The host drives `IN_HDR` and `IN_LEN` for a buffer (R235 duties 1 and 2). -/
def State.driveBuffer (s : State) (buf : List Byte) : State :=
  { s with hdr := Memory.ofLanes (laneOf buf), inLen := lengthShown buf.length }

/-- The host presents the command word `w` and will hold the inputs stable while it is answered (R24, R235 duty 3). -/
def State.present (s : State) (w : CommandWord) : State := { s with cmd := w, inputsHeld := true }

/-- The command the block answers next: the word on `CMD` (R24; 10_state.md R21: the block fetches nothing). Refused where the
host breaks duty 3 (93_implementation_defined.md U3; assumption 6). -/
def fetchCommand (s : State) : Except Refusal CommandWord :=
  if s.inputsHeld then .ok s.cmd else .error .inputsChanged

/-! ## The response (00_scope.md R11; 10_state.md R24, R25) -/

/-- The status names. Code 3 "never produced" (R25, 93 U4) has no name. -/
inductive Status where
  | ok
  | truncated
  | badOp
  deriving DecidableEq, Repr

/-- The status codes of R25. -/
def Status.code : Status → BitVec 2
  | .ok => 0#2
  | .truncated => 1#2
  | .badOp => 2#2

/-- `Respond(st, d)` (R11): it drives the two outputs, and there is nothing else for a command to change. -/
def State.respond (s : State) (st : Status) (d : Word) : State := { s with rspStatus := st.code, rspData := d }

/-! ## Errors (60_exceptions.md R200 to R206) -/

/-- The two errors of the block (R202). -/
inductive CommandError where
  /-- Fewer than 16 bytes were supplied: `got = IN_LEN` (R200). -/
  | truncated (got : Nat)
  /-- The command word is reserved (R201). -/
  | badOp
  deriving DecidableEq, Repr

/-- The status an error answers with (R200, R201). -/
def CommandError.status : CommandError → Status
  | .truncated _ => .truncated
  | .badOp => .badOp

/-- The data an error answers with: `zext_32({0x10, got[7:0]})` (R200), or 0 (R201). -/
def CommandError.data : CommandError → Word
  | .truncated got => zext32 (0x10#8 ++ BitVec.ofNat 8 got)
  | .badOp => 0x00000000#32

/-- `raise` (R11): the error is the response. "It saves no state, changes no mode and transfers control nowhere" (R205), so
there is also nothing to return from (R206). -/
def State.raise (s : State) (e : CommandError) : State := s.respond e.status e.data

/-- The answer to a reserved command word (R64, R65): `BAD_OP` with data 0, before any look at `IN_LEN` (R203). -/
def answerReserved (_ : Reserved) (s : State) : Host.Outcome State Fault Refusal := .next (s.raise .badOp)

/-! ## Presenting an opcode-table word -/

/-- The table word's command, presented (assumption 7). -/
def presentTableWord (s : State) (nbits w : Nat) : State := s.present (commandOfTable nbits w)

end Sys2Proof.Machine
end

