-- ==== Sys2Proof/Machine/Operands.lean ====
section
/-! DEFINITION. The implicit operands of every operation: the `HeaderInfo` of the inputs, and the length check that decides
whether there is one (10_state.md R27; 30_encoding.md R63, R70; 41_decode_fields.md R100 to R103). -/

namespace Sys2Proof.Machine

/-- The stored fields of the source's decoded result (R27, R101). `magic_valid`, which the source lists beside them, is derived
(90_conflicts.md C4) and computed by its own view. -/
structure HeaderInfo where
  magic : Vector Byte 4
  prgRomUnits : Byte
  chrRomUnits : Byte
  flags : Vector Byte 5
  tail : Vector Byte 5
  deriving DecidableEq, Repr

/-- The fields, each read at its documented offset (R41, R101, R102). -/
def State.headerInfo (s : State) : HeaderInfo where
  magic := #v[s.byteAt 0#4, s.byteAt 1#4, s.byteAt 2#4, s.byteAt 3#4]
  prgRomUnits := s.byteAt 4
  chrRomUnits := s.byteAt 5
  flags := #v[s.byteAt 6#4, s.byteAt 7#4, s.byteAt 8#4, s.byteAt 9#4, s.byteAt 10#4]
  tail := #v[s.byteAt 11#4, s.byteAt 12#4, s.byteAt 13#4, s.byteAt 14#4, s.byteAt 15#4]

/-- The source's `decode`: a `HeaderInfo` is "only constructible from a buffer of length ≥ 16" (R27, R70), and a shorter buffer
is the one error (R200). Nothing is latched (R101). -/
def State.decodeHeader (s : State) : Except CommandError HeaderInfo :=
  if s.inLen < 16 then .error (.truncated s.inLen) else .ok s.headerInfo

/-- What every legal command does (R70): the length check, then `Respond(OK, d)` with the operation's result (R71). -/
def State.answer (s : State) (result : HeaderInfo → Word) : Host.Outcome State Fault Refusal :=
  match s.decodeHeader with
  | .ok h => .next (s.respond .ok (result h))
  | .error e => .next (s.raise e)

/-- The explicit operand form, READ_BYTE's offset: `H[idx]`, unsigned, not scaled (R62). -/
def State.operandByte (s : State) (idx : Offset) : Byte := s.byteAt idx

end Sys2Proof.Machine
end

