-- ==== Sys2Proof/Machine/Flags.lean ====
section
/-! DEFINITION. The block has no flags that persist (10_state.md R26): an operation writes none. What the source gives as
booleans and enumerations are values of the response, and this file holds their numeric encodings (R28; 92_eei_decisions.md D6). -/

namespace Sys2Proof.Machine

/-- A boolean view as one bit: true is 1, false is 0 (D6). -/
def boolCode (b : Bool) : BitVec 1 := if b then 1#1 else 0#1

/-- The classes of TV-standard encoding A (44_bitfield_classifier.md R162). -/
inductive TvStandardA where
  | ntsc
  | pal
  | unknown
  deriving DecidableEq, Repr

/-- The codes of `tv_a` (R28, R162). -/
def TvStandardA.code : TvStandardA → BitVec 2
  | .ntsc => 0#2
  | .pal => 1#2
  | .unknown => 2#2

/-- The classes of TV-standard encoding B (R164). -/
inductive TvStandardB where
  | ntsc
  | pal
  | dualCompatible
  deriving DecidableEq, Repr

/-- The codes of `tv_b` (R28, R164). They are not the raw bits: raw 3 is code 2 (91_not_in_source.md N5). -/
def TvStandardB.code : TvStandardB → BitVec 2
  | .ntsc => 0#2
  | .pal => 1#2
  | .dualCompatible => 2#2

end Sys2Proof.Machine
end

