-- ==== Sys2Proof/Machine/BitFields.lean ====
section
/-! DEFINITION. The bit-field classifier: PRG_RAM_KB, TV_STD_A, TV_STD_B, PRG_RAM_PRESENT and NO_BUS_CONFLICTS
(44_bitfield_classifier.md). `flags[k] = H[6+k]`. -/

namespace Sys2Proof.Machine

/-- The view `prg_ram_kb` (R160): 8 for code 0, else 8 times the code, exact in 32 bits. -/
def HeaderInfo.prgRamKb (h : HeaderInfo) : Word :=
  if h.flags[2] = 0x00#8 then 8#32 else zext32 h.flags[2] * 8#32

/-- The view `tv_a` (R162): the whole byte 9 takes part. -/
def HeaderInfo.tvA (h : HeaderInfo) : TvStandardA :=
  if h.flags[3] = 0x00#8 then .ntsc else if h.flags[3] = 0x01#8 then .pal else .unknown

/-- The view `tv_b` (R164): bits 1:0 of byte 10, never reconciled with `tv_a` (R170). -/
def HeaderInfo.tvB (h : HeaderInfo) : TvStandardB :=
  let v := h.flags[4].extractLsb' 0 2
  if v = 0b00#2 then .ntsc else if v = 0b01#2 then .pal else .dualCompatible

/-- The view `prg_ram_present` (R166): bit 4 of byte 10 is CLEAR. -/
def HeaderInfo.prgRamPresent (h : HeaderInfo) : Bool := !h.flags[4].getLsbD 4

/-- The view `no_bus_conflicts` (R168): bit 5 of byte 10 is set, in the literal sense (90_conflicts.md C6; assumption 13). -/
def HeaderInfo.noBusConflicts (h : HeaderInfo) : Bool := h.flags[4].getLsbD 5

/-- PRG_RAM_KB (R161). -/
def execPrgRamKb (s : State) : Host.Outcome State Fault Refusal := s.answer fun h => h.prgRamKb

/-- TV_STD_A (R163). -/
def execTvStdA (s : State) : Host.Outcome State Fault Refusal := s.answer fun h => zext32 h.tvA.code

/-- TV_STD_B (R165). -/
def execTvStdB (s : State) : Host.Outcome State Fault Refusal := s.answer fun h => zext32 h.tvB.code

/-- PRG_RAM_PRESENT (R167). -/
def execPrgRamPresent (s : State) : Host.Outcome State Fault Refusal :=
  s.answer fun h => zext32 (boolCode h.prgRamPresent)

/-- NO_BUS_CONFLICTS (R169). -/
def execNoBusConflicts (s : State) : Host.Outcome State Fault Refusal :=
  s.answer fun h => zext32 (boolCode h.noBusConflicts)

end Sys2Proof.Machine
end

