-- ==== Sys2Proof/Machine/DecodeFields.lean ====
section
/-! DEFINITION. Decode and field extraction: DECODE and READ_BYTE (41_decode_fields.md). -/

namespace Sys2Proof.Machine

/-- DECODE (R100): only whether a `HeaderInfo` exists; its data is 0 (92_eei_decisions.md D11). It reads no header byte. -/
def execDecode (s : State) : Host.Outcome State Fault Refusal := s.answer fun _ => 0x00000000#32

/-- READ_BYTE idx (R104): the raw byte at the offset, whatever its value. It is the only way to see the bits that no view
decodes (R105). -/
def execReadByte (idx : Offset) (s : State) : Host.Outcome State Fault Refusal :=
  s.answer fun _ => zext32 (s.operandByte idx)

end Sys2Proof.Machine
end

