-- ==== Sys2Proof/Machine/Magic.lean ====
section
/-! DEFINITION. The magic validator: IS_MAGIC_VALID (42_magic_validator.md). -/

namespace Sys2Proof.Machine

/-- The view `magic_valid` (R120): each byte compared whole, at its own offset. -/
def HeaderInfo.magicValid (h : HeaderInfo) : Bool :=
  h.magic[0] == 0x4E#8 && h.magic[1] == 0x45#8 && h.magic[2] == 0x53#8 && h.magic[3] == 0x1A#8

/-- IS_MAGIC_VALID (R121). -/
def execIsMagicValid (s : State) : Host.Outcome State Fault Refusal :=
  s.answer fun h => zext32 (boolCode h.magicValid)

end Sys2Proof.Machine
end

