-- ==== Sys2Proof/Machine/RomSize.lean ====
section
/-! DEFINITION. The ROM-size decoder: PRG_ROM_DESC and CHR_ROM_DESC, and the description strings (43_rom_size_decoder.md). -/

namespace Sys2Proof.Machine

/-- `Pages(c)` (R140): the page count, a 7-bit value, 0 for Unknown. A bounds check stands for the source's two lookup tables
(R141). -/
def pages (c : Byte) : BitVec 7 := if 1 ≤ c.toNat ∧ c.toNat ≤ 64 then c.setWidth 7 else 0#7

/-- The view `prg_pages` (R140). -/
def HeaderInfo.prgPages (h : HeaderInfo) : BitVec 7 := pages h.prgRomUnits

/-- The view `chr_pages` (R140). -/
def HeaderInfo.chrPages (h : HeaderInfo) : BitVec 7 := pages h.chrRomUnits

/-- PRG_ROM_DESC (R142). -/
def execPrgRomDesc (s : State) : Host.Outcome State Fault Refusal := s.answer fun h => zext32 h.prgPages

/-- CHR_ROM_DESC (R143). -/
def execChrRomDesc (s : State) : Host.Outcome State Fault Refusal := s.answer fun h => zext32 h.chrPages

/-- `dec(n)` (00_scope.md R12): decimal digits, no sign, no leading zeros. -/
def dec (n : Nat) : String := String.ofList (Nat.toDigits 10 n)

/-- `DescString(p, u)` (R144), for a page count `p` of at most 64 and a page size of `u` KB. The block drives `p`; the string is
a function of it (R6; assumption 12). -/
def descString (p u : Nat) : String :=
  if p = 0 then "(Unknown)" else "(" ++ dec p ++ "x" ++ dec u ++ "kbpages)"

/-- The source's `prg_rom_description()`: pages of 16 KB (R142). -/
def HeaderInfo.prgRomDescription (h : HeaderInfo) : String := descString h.prgPages.toNat 16

/-- The source's `chr_rom_description()`: pages of 8 KB (R143). -/
def HeaderInfo.chrRomDescription (h : HeaderInfo) : String := descString h.chrPages.toNat 8

end Sys2Proof.Machine
end

