-- ==== Sys2Proof/Machine/Tail.lean ====
section
/-! DEFINITION. The tail validator: IS_TAIL_VALID (45_tail_validator.md). -/

namespace Sys2Proof.Machine

/-- The view `tail_valid` (R190): bytes 11 to 15 are all 0. Byte 7 is no part of the tail (90_conflicts.md C3). -/
def HeaderInfo.tailValid (h : HeaderInfo) : Bool :=
  h.tail[0] == 0#8 && h.tail[1] == 0#8 && h.tail[2] == 0#8 && h.tail[3] == 0#8 && h.tail[4] == 0#8

/-- IS_TAIL_VALID (R191). -/
def execIsTailValid (s : State) : Host.Outcome State Fault Refusal :=
  s.answer fun h => zext32 (boolCode h.tailValid)

end Sys2Proof.Machine
end

