-- ==== Sys2Proof/Machine/Dispatch.lean ====
section
/-! DEFINITION. One arm per instruction (30_encoding.md R70). -/

namespace Sys2Proof.Machine

/-- The meaning of an instruction on the inputs of one command. -/
def exec (i : Instr) (s : State) : Host.Outcome State Fault Refusal :=
  match i with
  | .decode => Sys2Proof.Machine.execDecode s
  | .isMagicValid => Sys2Proof.Machine.execIsMagicValid s
  | .prgRomDesc => Sys2Proof.Machine.execPrgRomDesc s
  | .chrRomDesc => Sys2Proof.Machine.execChrRomDesc s
  | .prgRamKb => Sys2Proof.Machine.execPrgRamKb s
  | .tvStdA => Sys2Proof.Machine.execTvStdA s
  | .tvStdB => Sys2Proof.Machine.execTvStdB s
  | .prgRamPresent => Sys2Proof.Machine.execPrgRamPresent s
  | .noBusConflicts => Sys2Proof.Machine.execNoBusConflicts s
  | .isTailValid => Sys2Proof.Machine.execIsTailValid s
  | .readByte idx => Sys2Proof.Machine.execReadByte idx s

end Sys2Proof.Machine
end

