-- ==== Sys2Proof/Machine/Step.lean ====
section
/-! DEFINITION. One step answers the one command on the ports (30_encoding.md R70; 70_reset_and_hazards.md R236). -/

namespace Sys2Proof.Machine

/-- One command, one atomic step (R236): take the word on `CMD`, decode it, and answer it. The inputs stay as the host drives
them. -/
def step (s : State) : Host.Outcome State Fault Refusal :=
  match fetchCommand s with
  | .error r => .refused r
  | .ok w =>
    match decodeCommand w with
    | .ok i => exec i s
    | .error r => answerReserved r s

/-- The table's word is the command the next step answers: the host presents it on `CMD` (10_state.md R24). -/
def State.withFetchWord (s : State) (nbits w : Nat) : State := presentTableWord s nbits w

end Sys2Proof.Machine
end

