-- ==== Sys2Proof/Machine/Program.lean ====
section
/-! DEFINITION. A host program: the actions of 30_encoding.md R80 in order, and its trace of (inputs, response) pairs
(10_state.md R33). The trace stands beside State and not in it, because the block keeps none (R20; assumption 19). -/

namespace Sys2Proof.Machine

/-- What a host does (R80). -/
inductive Action where
  /-- `.hdr`: drive `IN_HDR` with 16 bytes, byte i at offset i. -/
  | hdr (bytes : Vector Byte 16)
  /-- `.len n`: drive `IN_LEN` for a buffer of `n` bytes. -/
  | len (n : Nat)
  /-- Present a command word. -/
  | cmd (w : CommandWord)
  deriving DecidableEq, Repr

/-- The inputs at a command. -/
structure Inputs where
  cmd : CommandWord
  inHdr : BitVec 128
  inLen : Nat
  deriving DecidableEq, Repr

/-- A response: the two outputs (00_scope.md R15). -/
structure Response where
  status : BitVec 2
  data : Word
  deriving DecidableEq, Repr

/-- The inputs on the ports. -/
def State.inputs (s : State) : Inputs := ⟨s.cmd, s.inHdr, s.inLen⟩

/-- The response on the ports. -/
def State.response (s : State) : Response := ⟨s.rspStatus, s.rspData⟩

/-- The host's trace: one entry per command, in the order presented (R33, R236). -/
abbrev Trace := List (Inputs × Response)

/-- A directive's values stay on the ports until the next directive of its kind (R80). -/
def driveAction (s : State) : Action → State
  | .hdr bytes => s.driveHdr (packBus fun i => bytes[i.toNat])
  | .len n => s.driveLen n
  | .cmd w => s.present w

/-- Run a host program: each command is answered before the next action is taken (R236). -/
def runProgram : List Action → State → Host.Outcome (State × Trace) Fault Refusal
  | [], s => .next (s, [])
  | .hdr bytes :: rest, s => runProgram rest (driveAction s (.hdr bytes))
  | .len n :: rest, s => runProgram rest (driveAction s (.len n))
  | .cmd w :: rest, s =>
    match step (driveAction s (.cmd w)) with
    | .next t =>
      match runProgram rest t with
      | .next (u, trace) => .next (u, (t.inputs, t.response) :: trace)
      | .fault r => .fault r
      | .refused r => .refused r
    | .fault r => .fault r
    | .refused r => .refused r

end Sys2Proof.Machine
end

