-- ==== Sys2Proof/Machine/Assembler.lean ====
section
/-! DEFINITION. The assembler: the pseudo-instructions of 30_encoding.md R81 and the text of R80. It is not behaviour of the
block (92_eei_decisions.md D18). What R80 leaves open about the text is assumption 18. -/

namespace Sys2Proof.Machine

/-- The pseudo-instructions (R81). -/
inductive Pseudo where
  | readMagic (k : Nat)
  | readPrgUnits
  | readChrUnits
  | readFlags (k : Nat)
  | readTail (k : Nat)
  deriving DecidableEq, Repr

/-- The expansion into READ_BYTE at the field's offset; none where the operand is out of range: "It is an assembly error, not a
command" (R81). -/
def Pseudo.expand : Pseudo → Option Instr
  | .readMagic k => if k ≤ 3 then some (.readByte (BitVec.ofNat 4 k)) else none
  | .readPrgUnits => some (.readByte 4#4)
  | .readChrUnits => some (.readByte 5#4)
  | .readFlags k => if k ≤ 4 then some (.readByte (BitVec.ofNat 4 (6 + k))) else none
  | .readTail k => if k ≤ 4 then some (.readByte (BitVec.ofNat 4 (11 + k))) else none

/-- Why a line does not assemble. -/
inductive AsmError where
  /-- The first word is no mnemonic and no directive of R80 or R81. -/
  | unknownWord
  /-- A number is missing, is no number, or a word is left over. -/
  | badOperands
  /-- An operand is outside its range (R80, R81). -/
  | outOfRange
  deriving DecidableEq, Repr

/-- The mnemonics without an operand (R61). -/
def plainMnemonics : List (String × Instr) :=
  [("DECODE", .decode), ("IS_MAGIC_VALID", .isMagicValid), ("PRG_ROM_DESC", .prgRomDesc), ("CHR_ROM_DESC", .chrRomDesc),
   ("PRG_RAM_KB", .prgRamKb), ("TV_STD_A", .tvStdA), ("TV_STD_B", .tvStdB), ("PRG_RAM_PRESENT", .prgRamPresent),
   ("NO_BUS_CONFLICTS", .noBusConflicts), ("IS_TAIL_VALID", .isTailValid)]

/-- The digits of 00_scope.md R9's hexadecimal, in the order of their values; decimal uses the first ten. -/
def digitsInOrder : List Char := "0123456789ABCDEF".toList

/-- A digit's value is its place among the first `base` digits, in either case (assumption 18). -/
def digitIn (base : Nat) (c : Char) : Option Nat := (digitsInOrder.take base).idxOf? c.toUpper

/-- A non-empty word read as a number in a base, most significant digit first. -/
def readInBase (base : Nat) (word : List Char) : Option Nat :=
  if word = [] then none else word.foldlM (fun high c => (digitIn base c).map (high * base + ·)) 0

/-- A hexadecimal number without a prefix, as `.hdr` takes its bytes (R80). -/
def readHex (word : List Char) : Option Nat := readInBase 16 word

/-- A number: hexadecimal after `0x`, else decimal (00_scope.md R9). -/
def readNumber (word : List Char) : Option Nat :=
  match word with
  | '0' :: 'x' :: digits => readHex digits
  | _ => readInBase 10 word

/-- The words of a line, split at blanks; `;` begins a comment (R80). The first argument is the word being read, reversed. -/
def splitWords : List Char → List Char → List (List Char)
  | [], [] => []
  | word, [] => [word.reverse]
  | word, c :: cs =>
    if c = ';' then (if word = [] then [] else [word.reverse])
    else if c = ' ' ∨ c = '\t' then (if word = [] then splitWords [] cs else word.reverse :: splitWords [] cs)
    else splitWords (c :: word) cs

/-- Present an instruction's word. -/
def Action.ofInstr (i : Instr) : Action := .cmd (encode i)

/-- A pseudo-instruction, or its assembly error. -/
def assemblePseudo (p : Pseudo) : Except AsmError Action :=
  match p.expand with
  | some i => .ok (.ofInstr i)
  | none => .error .outOfRange

/-- One numeric operand, passed on. -/
def withNumber (args : List (List Char)) (f : Nat → Except AsmError Action) : Except AsmError Action :=
  match args with
  | [a] =>
    match readNumber a with
    | some n => f n
    | none => .error .badOperands
  | _ => .error .badOperands

/-- The bytes of `.hdr`: sixteen hexadecimal numbers of one byte each. -/
def assembleHdr (args : List (List Char)) : Except AsmError Action :=
  match args.mapM readHex with
  | none => .error .badOperands
  | some ns =>
    if h : ns.length = 16 then
      if ns.all (· < 256) then .ok (.hdr (⟨⟨ns.map (BitVec.ofNat 8)⟩, by simpa using h⟩)) else .error .outOfRange
    else .error .badOperands

/-- The line whose first word is `w` (R80, R81). DESIGN CHOICE (assumption 18): R80 gives `.cmd 0xNN` as the way to write a
RESERVED word and is silent on `.cmd` with a legal one; here `.cmd` takes any word, so that `.cmd 0x01` is IS_MAGIC_VALID's. -/
def assembleWords (w : String) (args : List (List Char)) : Except AsmError Action :=
  match plainMnemonics.lookup w with
  | some i => if args = [] then .ok (.ofInstr i) else .error .badOperands
  | none =>
    if w = "READ_BYTE" then
      withNumber args fun n => if n ≤ 15 then .ok (.ofInstr (.readByte (BitVec.ofNat 4 n))) else .error .outOfRange
    else if w = "READ_MAGIC" then withNumber args fun n => assemblePseudo (.readMagic n)
    else if w = "READ_PRG_UNITS" then (if args = [] then assemblePseudo .readPrgUnits else .error .badOperands)
    else if w = "READ_CHR_UNITS" then (if args = [] then assemblePseudo .readChrUnits else .error .badOperands)
    else if w = "READ_FLAGS" then withNumber args fun n => assemblePseudo (.readFlags n)
    else if w = "READ_TAIL" then withNumber args fun n => assemblePseudo (.readTail n)
    else if w = ".cmd" then
      withNumber args fun n => if n ≤ 255 then .ok (.cmd (BitVec.ofNat 8 n)) else .error .outOfRange
    else if w = ".len" then withNumber args fun n => .ok (.len n)
    else if w = ".hdr" then assembleHdr args
    else .error .unknownWord

/-- One line: at most one action (R80: one command per line). -/
def assembleLine (line : String) : Except AsmError (List Action) :=
  match splitWords [] line.toList with
  | [] => .ok []
  | w :: args => (assembleWords (String.ofList w) args).map fun a => [a]

/-- A program, line by line; the first line that does not assemble stops it. -/
def assemble : List String → Except AsmError (List Action)
  | [] => .ok []
  | line :: rest =>
    match assembleLine line with
    | .error e => .error e
    | .ok here => (assemble rest).map fun there => here ++ there

end Sys2Proof.Machine
end

