-- ==== Sys2Proof/Machine/Respond.lean ====
section
/-! DEFINITION. The block as 10_state.md R33 puts it: a total function of the command word, the header bus and the length to the
two outputs. It is written on the bits of the ports from the pseudocode of 30_encoding.md R70, with no decoder, no `HeaderInfo`
and no state, so that the machine can be held against it. -/

namespace Sys2Proof.Machine

/-- The result of the operation `op` on the bus: the data of an `OK` response (R61, R71, and each operation's pseudocode). -/
def resultOf (op idx : Nat) (hdr : BitVec 128) : Nat :=
  let H : Nat → Nat := fun i => (hdr.extractLsb' (8 * i) 8).toNat
  if op = 0x1 then -- R121
    if H 0 = 0x4E ∧ H 1 = 0x45 ∧ H 2 = 0x53 ∧ H 3 = 0x1A then 1 else 0
  else if op = 0x2 then -- R142
    if 1 ≤ H 4 ∧ H 4 ≤ 64 then H 4 else 0
  else if op = 0x3 then -- R143
    if 1 ≤ H 5 ∧ H 5 ≤ 64 then H 5 else 0
  else if op = 0x4 then -- R161
    if H 8 = 0 then 8 else H 8 * 8
  else if op = 0x5 then -- R163
    if H 9 = 0 then 0 else if H 9 = 1 then 1 else 2
  else if op = 0x6 then -- R165
    if H 10 % 4 = 0 then 0 else if H 10 % 4 = 1 then 1 else 2
  else if op = 0x7 then -- R167
    if H 10 / 16 % 2 = 0 then 1 else 0
  else if op = 0x8 then -- R169
    if H 10 / 32 % 2 = 1 then 1 else 0
  else if op = 0x9 then -- R191
    if H 11 = 0 ∧ H 12 = 0 ∧ H 13 = 0 ∧ H 14 = 0 ∧ H 15 = 0 then 1 else 0
  else if op = 0xA then H idx -- R104
  else 0 -- DECODE, R100

/-- `respond(CMD, IN_HDR, IN_LEN) -> (RSP_STATUS, RSP_DATA)` (R33), by the steps of `Execute` (R70) in their order. -/
def respond (cmd : CommandWord) (hdr : BitVec 128) (len : Nat) : BitVec 2 × Word :=
  let op := cmd.toNat % 16
  let idx := cmd.toNat / 16
  if 0xB ≤ op then (2#2, 0#32) -- R64
  else if op ≠ 0xA ∧ idx ≠ 0 then (2#2, 0#32) -- R65
  else if len < 16 then (1#2, BitVec.ofNat 32 (0x1000 + len)) -- R200
  else (0#2, BitVec.ofNat 32 (resultOf op idx hdr))

end Sys2Proof.Machine
end

