-- ==== Sys2Proof/Safety.lean ====
section
/-! DEFINITION. What the claims speak of: the host's duties, the shapes of a response, and the machine's invariant. -/

namespace Sys2Proof.Machine

/-- Duties 1 and 2 of 70_reset_and_hazards.md R235 hold in `s` for the buffer `buf`: its first 16 bytes stand at their offsets
(the lanes past its end hold any values), and `IN_LEN` shows its length, or any value of at least 16 where the length does not
fit the port. -/
def ShowsBuffer (buf : List Byte) (s : State) : Prop :=
  (∀ i : Offset, ∀ b : Byte, buf[i.toNat]? = some b → s.byteAt i = b) ∧
  (buf.length < 2 ^ Config.lenW → s.inLen = buf.length) ∧
  (2 ^ Config.lenW ≤ buf.length → 16 ≤ s.inLen ∧ s.inLen < 2 ^ Config.lenW)

/-- The shapes of a response (10_state.md R25; 60_exceptions.md R200, R201): `OK` with data in the widest result's range
(0 to 2040, R28), `TRUNCATED` with needed 16 and got below 16, `BAD_OP` with data 0, and never status 3. -/
def ResponseShape (st : BitVec 2) (d : Word) : Prop :=
  (st = 0#2 ∧ d.toNat ≤ 2040) ∨ (st = 1#2 ∧ 0x1000 ≤ d.toNat ∧ d.toNat ≤ 0x100F) ∨ (st = 2#2 ∧ d = 0#32)

/-- The invariant of the machine: the header space is in its canonical form, `IN_LEN` fits its port (R23), and the outputs hold a
response the block can give. -/
def State.Inv (s : State) : Prop :=
  s.hdr.wf = true ∧ s.inLen < 2 ^ Config.lenW ∧ ResponseShape s.rspStatus s.rspData

/-- Two outcomes are responses with the same status and the same data. -/
def SameResponse (a b : Host.Outcome State Fault Refusal) : Prop :=
  ∃ s t : State, a = .next s ∧ b = .next t ∧ s.rspStatus = t.rspStatus ∧ s.rspData = t.rspData

/-- What the rule of an operation without an operand says beyond its result: its word is `op` with idx 0, it completes with `OK`
and that result whenever 16 bytes are there, it is `TRUNCATED` with `needed = 16` and `got = IN_LEN` when they are not
(60_exceptions.md R200), and each word with its op and another idx is answered `BAD_OP` with data 0 (30_encoding.md R65). No
response changes anything but the two outputs. -/
def OperationRule (i : Instr) (op : BitVec 4) (result : State → Word) : Prop :=
  encode i = 0#4 ++ op ∧
  decodeCommand (0#4 ++ op) = .ok i ∧
  (∀ s : State, 16 ≤ s.inLen → exec i s = .next { s with rspStatus := 0#2, rspData := result s }) ∧
  (∀ s : State, s.inLen < 16 →
    exec i s = .next { s with rspStatus := 1#2, rspData := BitVec.ofNat 32 (0x1000 + s.inLen) }) ∧
  (∀ (s : State) (idx : BitVec 4), s.inputsHeld = true → idx ≠ 0#4 → s.cmd = idx ++ op →
    step s = .next { s with rspStatus := 2#2, rspData := 0#32 })

/-- The bits of each header byte that an operation reads (10_state.md R28; 30_encoding.md R63): a mask per offset. -/
def bitsRead : Instr → Offset → Byte
  | .decode, _ => 0x00#8
  | .isMagicValid, a => if a.toNat ≤ 3 then 0xFF#8 else 0x00#8
  | .prgRomDesc, a => if a = 4#4 then 0xFF#8 else 0x00#8
  | .chrRomDesc, a => if a = 5#4 then 0xFF#8 else 0x00#8
  | .prgRamKb, a => if a = 8#4 then 0xFF#8 else 0x00#8
  | .tvStdA, a => if a = 9#4 then 0xFF#8 else 0x00#8
  | .tvStdB, a => if a = 10#4 then 0x03#8 else 0x00#8
  | .prgRamPresent, a => if a = 10#4 then 0x10#8 else 0x00#8
  | .noBusConflicts, a => if a = 10#4 then 0x20#8 else 0x00#8
  | .isTailValid, a => if 11 ≤ a.toNat then 0xFF#8 else 0x00#8
  | .readByte idx, a => if a = idx then 0xFF#8 else 0x00#8

/-- The width of an operation's result (R28, R71; DECODE's data is 0, R100). -/
def resultWidth : Instr → Nat
  | .decode => 0
  | .isMagicValid => 1
  | .prgRomDesc => 7
  | .chrRomDesc => 7
  | .prgRamKb => 32
  | .tvStdA => 2
  | .tvStdB => 2
  | .prgRamPresent => 1
  | .noBusConflicts => 1
  | .isTailValid => 1
  | .readByte _ => 8

end Sys2Proof.Machine
end

