-- ==== Sys2Proof/Certificates/Slice0/Obligations.lean ====
section
/-! DEFINITION. The statements for the provers. Each docstring names the rule of spec/ it formalises. -/

open Sys2Proof Sys2Proof.Machine

/-! ## Encoding -/

/-- Words written out bit by bit from the opcode map (30_encoding.md R61), at least one of every family, and one word of each
reserved kind (R64, R65). -/
def Obligations.WordsDecodeAsWritten : Prop :=
  decodeCommand 0b00000000#8 = .ok .decode ∧
  decodeCommand 0b00000001#8 = .ok .isMagicValid ∧
  decodeCommand 0b00000010#8 = .ok .prgRomDesc ∧
  decodeCommand 0b00000011#8 = .ok .chrRomDesc ∧
  decodeCommand 0b00000100#8 = .ok .prgRamKb ∧
  decodeCommand 0b00000111#8 = .ok .prgRamPresent ∧
  decodeCommand 0b00001001#8 = .ok .isTailValid ∧
  decodeCommand 0b01001010#8 = .ok (.readByte 4#4) ∧
  decodeCommand 0b11111010#8 = .ok (.readByte 15#4) ∧
  decodeCommand 0b00001011#8 = .error (.op 0xB#4 0#4) ∧
  decodeCommand 0b11111001#8 = .error (.idx 0x9#4 15#4)

/-- Decode and encode agree both ways, for every instruction and every command word (R60, R61; R66: one meaning per word). -/
def Obligations.DecodeEncodeAgree : Prop :=
  (∀ i : Instr, decodeCommand (encode i) = .ok i) ∧
  (∀ (w : CommandWord) (i : Instr), decodeCommand w = .ok i → encode i = w)

/-- R66: of the 256 words 26 are legal, the decoder accepts exactly those, and the other 230 are answered `BAD_OP`. -/
def Obligations.LegalWordsAreTwentySix : Prop :=
  ((List.range 256).filter fun n => legalWord (BitVec.ofNat 8 n)).length = 26 ∧
  (∀ w : CommandWord, (∃ i, decodeCommand w = .ok i) ↔ legalWord w = true) ∧
  (∀ s : State, s.inputsHeld = true → legalWord s.cmd = false →
    step s = .next { s with rspStatus := 2#2, rspData := 0#32 })

/-- R64: words with op 0xB to 0xF, whatever their idx, are reserved, 80 of them; `BAD_OP`, data 0, no other effect. -/
def Obligations.ReservedOpAnswersBadOp : Prop :=
  ((List.range 256).filter fun n => decide (0xB ≤ n % 16)).length = 80 ∧
  ∀ s : State, 0xB ≤ s.cmd.toNat % 16 →
    (∃ r, decodeCommand s.cmd = .error r) ∧
    (s.inputsHeld = true → step s = .next { s with rspStatus := 2#2, rspData := 0#32 })

/-- R65: words with op 0x0 to 0x9 and a non-zero idx are reserved, 150 of them; `BAD_OP`, data 0. -/
def Obligations.ReservedIdxAnswersBadOp : Prop :=
  ((List.range 256).filter fun n => decide (n % 16 ≤ 0x9) && decide (n / 16 ≠ 0)).length = 150 ∧
  ∀ s : State, s.cmd.toNat % 16 ≤ 0x9 → s.cmd.toNat / 16 ≠ 0 →
    (∃ r, decodeCommand s.cmd = .error r) ∧
    (s.inputsHeld = true → step s = .next { s with rspStatus := 2#2, rspData := 0#32 })

/-- R81: each pseudo-instruction is READ_BYTE at its field's offset, with the word of the table; out of range it does not
assemble. -/
def Obligations.PseudoInstructionsExpand : Prop :=
  (∀ k, k ≤ 3 → (Pseudo.readMagic k).expand = some (.readByte (BitVec.ofNat 4 k)) ∧
    (encode (.readByte (BitVec.ofNat 4 k))).toNat = 0x0A + 0x10 * k) ∧
  (Pseudo.readPrgUnits.expand = some (.readByte 4#4) ∧ encode (.readByte 4#4) = 0x4A#8) ∧
  (Pseudo.readChrUnits.expand = some (.readByte 5#4) ∧ encode (.readByte 5#4) = 0x5A#8) ∧
  (∀ k, k ≤ 4 → (Pseudo.readFlags k).expand = some (.readByte (BitVec.ofNat 4 (6 + k))) ∧
    (encode (.readByte (BitVec.ofNat 4 (6 + k)))).toNat = 0x6A + 0x10 * k) ∧
  (∀ k, k ≤ 4 → (Pseudo.readTail k).expand = some (.readByte (BitVec.ofNat 4 (11 + k))) ∧
    (encode (.readByte (BitVec.ofNat 4 (11 + k)))).toNat = 0xBA + 0x10 * k) ∧
  (∀ k, 3 < k → (Pseudo.readMagic k).expand = none) ∧
  (∀ k, 4 < k → (Pseudo.readFlags k).expand = none ∧ (Pseudo.readTail k).expand = none)

/-! ## The step -/

/-- A step runs the decoded instruction: where the host holds the inputs (assumption 6), the word on `CMD` is decoded and the
step is `exec` of it; a reserved word is answered `BAD_OP`. There is no program counter to advance (10_state.md R21, R24). -/
def Obligations.StepRunsDecodedInstruction : Prop :=
  ∀ s : State, s.inputsHeld = true →
    (∀ i, decodeCommand s.cmd = .ok i → step s = exec i s) ∧
    (∀ r, decodeCommand s.cmd = .error r → step s = .next { s with rspStatus := 2#2, rspData := 0#32 })

/-- 60_exceptions.md R214: a command always has a response, except where the host breaks duty 3 of R235, which the model refuses
(93_implementation_defined.md U3; assumption 6, a DESIGN CHOICE). -/
def Obligations.NoStepOnlyWhenInputsChange : Prop :=
  (∀ s : State, s.inputsHeld = true → ∃ t, step s = .next t) ∧
  (∀ s : State, s.inputsHeld = false → step s = .refused .inputsChanged)

/-- R70: a step computes `Execute(CMD, IN_HDR, IN_LEN)`, written on the bits of the ports (`respond`, R33), and changes nothing but
the two outputs. -/
def Obligations.StepIsExecute : Prop :=
  ∀ s : State, s.inputsHeld = true →
    step s = .next { s with
      rspStatus := (respond s.cmd s.inHdr s.inLen).1
      rspData := (respond s.cmd s.inHdr s.inLen).2 }

/-! ## Errors -/

/-- 60_exceptions.md R200: every legal command with fewer than 16 bytes is `TRUNCATED`, with got in data bits 7:0 (bits 7:4 being
0), needed = 16 in bits 15:8 and 0 above. -/
def Obligations.TruncatedRecordsNeededAndGot : Prop :=
  ∀ s : State, s.inputsHeld = true → legalWord s.cmd = true → s.inLen < 16 →
    ∃ t, step s = .next t ∧ t = { s with rspStatus := 1#2, rspData := t.rspData } ∧
      (t.rspData.extractLsb' 0 8).toNat = s.inLen ∧
      t.rspData.extractLsb' 4 4 = 0#4 ∧
      t.rspData.extractLsb' 8 8 = 0x10#8 ∧
      t.rspData.extractLsb' 16 16 = 0#16 ∧
      (s.inLen = 15 → t.rspData = 0x0000100F#32) ∧ (s.inLen = 0 → t.rspData = 0x00001000#32)

/-- R201: the status is `BAD_OP` (2) exactly for op 0xB to 0xF, or op 0x0 to 0x9 with a non-zero idx, and then the data is 0. -/
def Obligations.BadOpExactlyForReservedWords : Prop :=
  ∀ s : State, s.inputsHeld = true →
    ∃ t, step s = .next t ∧
      (t.rspStatus = 2#2 ↔
        (0xB ≤ s.cmd.toNat % 16 ∨ (s.cmd.toNat % 16 ≤ 0x9 ∧ s.cmd.toNat / 16 ≠ 0))) ∧
      (t.rspStatus = 2#2 → t.rspData = 0x00000000#32)

/-- R203: the op and idx checks come before the length check, and one status is reported. -/
def Obligations.BadOpBeforeTruncated : Prop :=
  ∀ s : State, s.inputsHeld = true → s.inLen < 16 →
    (legalWord s.cmd = false → step s = .next { s with rspStatus := 2#2, rspData := 0#32 }) ∧
    (legalWord s.cmd = true →
      step s = .next { s with rspStatus := 1#2, rspData := BitVec.ofNat 32 (0x1000 + s.inLen) })

/-- R202 and 41_decode_fields.md R106: the two errors are the only ones, each exactly for its cause, so that no content of the
header makes a command fail. -/
def Obligations.OnlyTwoErrors : Prop :=
  ∀ s : State, s.inputsHeld = true →
    ∃ t, step s = .next t ∧
      (t.rspStatus = 0#2 ↔ legalWord s.cmd = true ∧ 16 ≤ s.inLen) ∧
      (t.rspStatus = 1#2 ↔ legalWord s.cmd = true ∧ s.inLen < 16) ∧
      (t.rspStatus = 2#2 ↔ legalWord s.cmd = false)

/-- R204: an error response carries no view: with the same command and length, whatever the header bytes, it is the same. -/
def Obligations.ErrorsCarryNoView : Prop :=
  ∀ s t s' : State, s.inputsHeld = true → t.inputsHeld = true → s.cmd = t.cmd → s.inLen = t.inLen →
    step s = .next s' → s'.rspStatus ≠ 0#2 → SameResponse (step s) (step t)

/-- R206: a command after an error is answered as it would be in any other state: after a step from `s` that ended in an error,
new inputs get the response they get on `u`. -/
def Obligations.ErrorsLeaveNothingBehind : Prop :=
  ∀ (s t u : State) (bus : BitVec 128) (n : Nat) (w : CommandWord),
    step s = .next t → t.rspStatus ≠ 0#2 →
    SameResponse (step (((t.driveHdr bus).driveLen n).present w)) (step (((u.driveHdr bus).driveLen n).present w))

/-! ## The operations -/

/-- DECODE (41_decode_fields.md R100): `OK` with data 0 for any length of at least 16 and any header bytes. -/
def Obligations.DecodeReportsTheOutcome : Prop := OperationRule .decode 0x0#4 fun _ => 0x00000000#32

/-- READ_BYTE (R104): the raw byte at each of the 16 offsets, zero-extended; its word for every idx; no `BAD_OP`. -/
def Obligations.ReadByteReturnsTheRawByte : Prop :=
  ∀ idx : BitVec 4,
    encode (.readByte idx) = idx ++ 0xA#4 ∧
    decodeCommand (idx ++ 0xA#4) = .ok (.readByte idx) ∧
    (∀ s : State, 16 ≤ s.inLen →
      exec (.readByte idx) s = .next { s with rspStatus := 0#2, rspData := (s.byteAt idx).setWidth 32 }) ∧
    (∀ s : State, s.inLen < 16 →
      exec (.readByte idx) s = .next { s with rspStatus := 1#2, rspData := BitVec.ofNat 32 (0x1000 + s.inLen) }) ∧
    (∀ (p : Pseudo) (i : Instr), p.expand = some i → ∃ k, i = .readByte k)

/-- IS_MAGIC_VALID (42_magic_validator.md R120, R121): 1 exactly when bytes 0 to 3 are 4E 45 53 1A, each compared whole. -/
def Obligations.MagicValidIffSignature : Prop :=
  OperationRule .isMagicValid 0x1#4 fun s =>
    if s.byteAt 0#4 = 0x4E#8 ∧ s.byteAt 1#4 = 0x45#8 ∧ s.byteAt 2#4 = 0x53#8 ∧ s.byteAt 3#4 = 0x1A#8 then 1#32 else 0#32

/-- `Pages(c)` (43_rom_size_decoder.md R140): c for 1 to 64, else 0 for Unknown; prg_pages from byte 4, chr_pages from byte 5. -/
def Obligations.PagesOfSizeCode : Prop :=
  (∀ c : Byte, 1 ≤ c.toNat → c.toNat ≤ 64 → (pages c).toNat = c.toNat) ∧
  (∀ c : Byte, c = 0#8 ∨ 65 ≤ c.toNat → pages c = 0#7) ∧
  (∀ c : Byte, 1 ≤ c.toNat → c.toNat ≤ 64 → pages c ≠ 0#7) ∧
  (∀ s : State, s.headerInfo.prgPages = pages (s.byteAt 4#4) ∧ s.headerInfo.chrPages = pages (s.byteAt 5#4))

/-- R141: the bounds check does what a 64-entry table with entry n holding n, and Unknown outside it, does. -/
def Obligations.PagesMatchTheLookupTable : Prop :=
  ∀ c : Byte, (pages c).toNat =
    if c.toNat = 0 then 0 else (((List.range 64).map fun n => n + 1)[c.toNat - 1]?).getD 0

/-- PRG_ROM_DESC (R142): the page count of byte 4, and the description string from it. -/
def Obligations.PrgRomDescReturnsPages : Prop :=
  (OperationRule .prgRomDesc 0x2#4 fun s =>
    if 1 ≤ (s.byteAt 4#4).toNat ∧ (s.byteAt 4#4).toNat ≤ 64 then (s.byteAt 4#4).setWidth 32 else 0#32) ∧
  ∀ s : State, s.headerInfo.prgRomDescription = descString (pages (s.byteAt 4#4)).toNat 16

/-- CHR_ROM_DESC (R143): the page count of byte 5, and the description string from it. -/
def Obligations.ChrRomDescReturnsPages : Prop :=
  (OperationRule .chrRomDesc 0x3#4 fun s =>
    if 1 ≤ (s.byteAt 5#4).toNat ∧ (s.byteAt 5#4).toNat ≤ 64 then (s.byteAt 5#4).setWidth 32 else 0#32) ∧
  ∀ s : State, s.headerInfo.chrRomDescription = descString (pages (s.byteAt 5#4)).toNat 8

/-- R144: the description strings, with the source's examples; the form for other counts is the spec's derivation (91 N4,
assumption 12). -/
def Obligations.DescriptionStrings : Prop :=
  (∀ u : Nat, descString 0 u = "(Unknown)") ∧
  (∀ p u : Nat, 1 ≤ p → p ≤ 64 → descString p u = "(" ++ toString p ++ "x" ++ toString u ++ "kbpages)") ∧
  descString 1 16 = "(1x16kbpages)" ∧ descString 8 8 = "(8x8kbpages)" ∧ descString 1 8 = "(1x8kbpages)" ∧
  descString 64 16 = "(64x16kbpages)" ∧ descString 64 8 = "(64x8kbpages)"

/-- R145: a code reported as Unknown is still read exactly by READ_PRG_UNITS and READ_CHR_UNITS. -/
def Obligations.UnknownSizeCodeStaysReadable : Prop :=
  Pseudo.readPrgUnits.expand = some (.readByte 4#4) ∧ Pseudo.readChrUnits.expand = some (.readByte 5#4) ∧
  ∀ s : State, 16 ≤ s.inLen →
    (s.byteAt 4#4 = 0#8 ∨ 65 ≤ (s.byteAt 4#4).toNat →
      exec .prgRomDesc s = .next { s with rspStatus := 0#2, rspData := 0#32 } ∧
      exec (.readByte 4#4) s = .next { s with rspStatus := 0#2, rspData := (s.byteAt 4#4).setWidth 32 }) ∧
    (s.byteAt 5#4 = 0#8 ∨ 65 ≤ (s.byteAt 5#4).toNat →
      exec .chrRomDesc s = .next { s with rspStatus := 0#2, rspData := 0#32 } ∧
      exec (.readByte 5#4) s = .next { s with rspStatus := 0#2, rspData := (s.byteAt 5#4).setWidth 32 })

/-- PRG_RAM_KB (44_bitfield_classifier.md R160, R161): 8 for code 0, else 8 times the code with no wrap-around; always a multiple
of 8 from 8 to 2040. -/
def Obligations.PrgRamKbIsEightTimesCode : Prop :=
  (OperationRule .prgRamKb 0x4#4 fun s =>
    if s.byteAt 8#4 = 0#8 then 8#32 else BitVec.ofNat 32 ((s.byteAt 8#4).toNat * 8)) ∧
  ∀ s : State, s.headerInfo.prgRamKb.toNat = (if s.byteAt 8#4 = 0#8 then 8 else (s.byteAt 8#4).toNat * 8) ∧
    8 ≤ s.headerInfo.prgRamKb.toNat ∧ s.headerInfo.prgRamKb.toNat ≤ 2040 ∧ s.headerInfo.prgRamKb.toNat % 8 = 0

/-- TV_STD_A (R162, R163): the whole byte 9 decides; 0 NTSC, 1 PAL, else 2 Unknown. -/
def Obligations.TvStdAClassifiesWholeByte : Prop :=
  OperationRule .tvStdA 0x5#4 fun s => if s.byteAt 9#4 = 0#8 then 0#32 else if s.byteAt 9#4 = 1#8 then 1#32 else 2#32

/-- TV_STD_B (R164, R165): bits 1:0 of byte 10 decide; 0 NTSC, 1 PAL, 2 and 3 DualCompatible (2). -/
def Obligations.TvStdBClassifiesTwoBits : Prop :=
  OperationRule .tvStdB 0x6#4 fun s =>
    if (s.byteAt 10#4).toNat % 4 = 0 then 0#32 else if (s.byteAt 10#4).toNat % 4 = 1 then 1#32 else 2#32

/-- PRG_RAM_PRESENT (R166, R167): 1 exactly when bit 4 of byte 10 is clear. -/
def Obligations.PrgRamPresentWhenBitFourClear : Prop :=
  OperationRule .prgRamPresent 0x7#4 fun s => if (s.byteAt 10#4).toNat / 16 % 2 = 0 then 1#32 else 0#32

/-- NO_BUS_CONFLICTS (R168, R169): 1 exactly when bit 5 of byte 10 is set. -/
def Obligations.NoBusConflictsWhenBitFiveSet : Prop :=
  OperationRule .noBusConflicts 0x8#4 fun s => if (s.byteAt 10#4).toNat / 32 % 2 = 1 then 1#32 else 0#32

/-- R170: tv_a depends on byte 9 and tv_b on byte 10, each alone, and a disagreement is answered `OK` on both sides. -/
def Obligations.TvStandardsAreIndependent : Prop :=
  (∀ s t : State, s.inLen = t.inLen → s.byteAt 9#4 = t.byteAt 9#4 → SameResponse (exec .tvStdA s) (exec .tvStdA t)) ∧
  (∀ s t : State, s.inLen = t.inLen → s.byteAt 10#4 = t.byteAt 10#4 → SameResponse (exec .tvStdB s) (exec .tvStdB t)) ∧
  (∀ s : State, 16 ≤ s.inLen → s.byteAt 9#4 = 0x01#8 → s.byteAt 10#4 = 0x00#8 →
    exec .tvStdA s = .next { s with rspStatus := 0#2, rspData := 1#32 } ∧
    exec .tvStdB s = .next { s with rspStatus := 0#2, rspData := 0#32 })

/-- IS_TAIL_VALID (45_tail_validator.md R190, R191): 1 exactly when bytes 11 to 15 are all 0; no other byte takes part. -/
def Obligations.TailValidIffAllZero : Prop :=
  OperationRule .isTailValid 0x9#4 fun s =>
    if s.byteAt 11#4 = 0#8 ∧ s.byteAt 12#4 = 0#8 ∧ s.byteAt 13#4 = 0#8 ∧ s.byteAt 14#4 = 0#8 ∧ s.byteAt 15#4 = 0#8 then 1#32
    else 0#32

/-- 30_encoding.md R71: every legal command with 16 bytes completes `OK`, and the bits above the result's width are 0. -/
def Obligations.ResultsAreZeroExtended : Prop :=
  ∀ (i : Instr) (s : State), 16 ≤ s.inLen →
    ∃ t, exec i s = .next t ∧ t.rspStatus = 0#2 ∧ ∀ k, resultWidth i ≤ k → t.rspData.getLsbD k = false

/-! ## Frames, determinism and isolation -/

/-- The frame of all eleven instructions and of the step (10_state.md R20, R26; 20_memory.md R40): every header byte and every
input stays as it was; only the two outputs may change. -/
def Obligations.CommandsChangeOnlyTheOutputs : Prop :=
  (∀ (i : Instr) (s t : State), exec i s = .next t →
    (∀ a : Offset, t.byteAt a = s.byteAt a) ∧ t.hdr = s.hdr ∧ t.inLen = s.inLen ∧ t.cmd = s.cmd ∧
      t.inputsHeld = s.inputsHeld) ∧
  (∀ s t : State, step s = .next t →
    (∀ a : Offset, t.byteAt a = s.byteAt a) ∧ t.hdr = s.hdr ∧ t.inLen = s.inLen ∧ t.cmd = s.cmd ∧
      t.inputsHeld = s.inputsHeld)

/-- 41_decode_fields.md R107: equal `CMD`, `IN_HDR` and `IN_LEN`, equal responses, whatever the rest of the state. -/
def Obligations.EqualInputsEqualResponses : Prop :=
  ∀ s t : State, s.inputsHeld = true → t.inputsHeld = true → s.cmd = t.cmd → s.inHdr = t.inHdr → s.inLen = t.inLen →
    SameResponse (step s) (step t)

/-- 20_memory.md R45: answering the same command again gives the same state again. The second step is taken with nothing newly
presented: that it answers the word still on `CMD` is the model's choice (assumption 7). -/
def Obligations.CommandsAreIdempotent : Prop := ∀ s t : State, step s = .next t → step t = .next t

/-- 41_decode_fields.md R103: the value of `IN_LEN` above 16 changes no response, and buffers with equal first 16 bytes get equal
responses. -/
def Obligations.OnlySixteenBytesAreConsulted : Prop :=
  (∀ s t : State, s.inputsHeld = true → t.inputsHeld = true → s.cmd = t.cmd → s.inHdr = t.inHdr →
    16 ≤ s.inLen → 16 ≤ t.inLen → SameResponse (step s) (step t)) ∧
  (∀ (buf buf' : List Byte) (s t : State), s.inputsHeld = true → t.inputsHeld = true → s.cmd = t.cmd →
    ShowsBuffer buf s → ShowsBuffer buf' t → 16 ≤ buf.length → 16 ≤ buf'.length → buf.take 16 = buf'.take 16 →
    SameResponse (step s) (step t))

/-- 30_encoding.md R63: an operation's response depends on `IN_LEN` and on the header bits listed for it, and on nothing else. -/
def Obligations.OperationsReadOnlyTheirBits : Prop :=
  ∀ (i : Instr) (s t : State), s.inLen = t.inLen →
    (∀ a : Offset, s.byteAt a &&& bitsRead i a = t.byteAt a &&& bitsRead i a) → SameResponse (exec i s) (exec i t)

/-- 41_decode_fields.md R105: bytes 6 and 7, bits 7:6 and 3:2 of byte 10, and the single bytes of magic and tail reach no view
but as the two validity bits; READ_BYTE shows every one of them. -/
def Obligations.RawBytesReachOnlyReadByte : Prop :=
  (∀ s t : State, s.inLen = t.inLen →
    s.headerInfo.magicValid = t.headerInfo.magicValid → s.headerInfo.tailValid = t.headerInfo.tailValid →
    s.byteAt 4#4 = t.byteAt 4#4 → s.byteAt 5#4 = t.byteAt 5#4 → s.byteAt 8#4 = t.byteAt 8#4 → s.byteAt 9#4 = t.byteAt 9#4 →
    s.byteAt 10#4 &&& 0x33#8 = t.byteAt 10#4 &&& 0x33#8 →
    ∀ i : Instr, (∀ idx, i ≠ .readByte idx) → SameResponse (exec i s) (exec i t)) ∧
  (∀ (s t : State) (idx : Offset), 16 ≤ s.inLen → 16 ≤ t.inLen → s.byteAt idx ≠ t.byteAt idx →
    ¬ SameResponse (exec (.readByte idx) s) (exec (.readByte idx) t))

/-- 41_decode_fields.md R101: the fields of the `HeaderInfo`, and that they are the 16 bytes in order, each once (10_state.md R27). -/
def Obligations.HeaderInfoIsTheSixteenBytes : Prop :=
  ∀ s : State,
    s.headerInfo.magic = #v[s.byteAt 0#4, s.byteAt 1#4, s.byteAt 2#4, s.byteAt 3#4] ∧
    s.headerInfo.prgRomUnits = s.byteAt 4#4 ∧ s.headerInfo.chrRomUnits = s.byteAt 5#4 ∧
    s.headerInfo.flags = #v[s.byteAt 6#4, s.byteAt 7#4, s.byteAt 8#4, s.byteAt 9#4, s.byteAt 10#4] ∧
    s.headerInfo.tail = #v[s.byteAt 11#4, s.byteAt 12#4, s.byteAt 13#4, s.byteAt 14#4, s.byteAt 15#4] ∧
    s.headerInfo.magic.toList ++ [s.headerInfo.prgRomUnits, s.headerInfo.chrRomUnits] ++ s.headerInfo.flags.toList ++
      s.headerInfo.tail.toList = (List.range 16).map fun n => s.byteAt (BitVec.ofNat 4 n)

/-! ## The ports and the host -/

/-- 10_state.md R22: byte i of the header is bits 8*i+7:8*i of the bus the host drives, and of the port as it stands. -/
def Obligations.HeaderByteIsBusLane : Prop :=
  (∀ (s : State) (bus : BitVec 128) (i : Offset), (s.driveHdr bus).byteAt i = bus.extractLsb' (8 * i.toNat) 8) ∧
  (∀ (s : State) (i : Offset), s.inHdr.extractLsb' (8 * i.toNat) 8 = s.byteAt i) ∧
  (∀ (s : State) (bus : BitVec 128), (s.driveHdr bus).inHdr = bus)

/-- 20_memory.md R48: after the host changed `IN_HDR` alone, the word still on `CMD` is answered from the new bytes, at the length
still on `IN_LEN`. That a step answers that word with nothing newly presented is the model's choice (assumption 7). Another
command word or length is the matter of `StepIsExecute` with `HeaderByteIsBusLane`. -/
def Obligations.ChangedHeaderIsSeenByNextCommand : Prop :=
  ∀ (s t : State) (bus : BitVec 128), step s = .next t →
    ∃ u, step (t.driveHdr bus) = .next u ∧ u.inHdr = bus ∧ u.cmd = s.cmd ∧ u.inLen = s.inLen ∧
      u.rspStatus = (respond s.cmd bus s.inLen).1 ∧ u.rspData = (respond s.cmd bus s.inLen).2

/-- 70_reset_and_hazards.md R230: right after reset a command gets the response it gets in any other state with the same inputs. -/
def Obligations.ResetChangesNoResponse : Prop :=
  ∀ (s : State) (bus : BitVec 128) (n : Nat) (w : CommandWord),
    SameResponse (step (((State.reset.driveHdr bus).driveLen n).present w))
      (step (((s.driveHdr bus).driveLen n).present w))

/-- The block refines the source's function on buffers (70_reset_and_hazards.md R235 duties 1 and 2; R100 to R103): whatever a
host that meets its duties puts on the lanes past the buffer's end and on a port too narrow for its length, the response is the
one computed from the buffer alone, its missing bytes read as anything (here 0). -/
def Obligations.BufferDecodesAsTheSourceDoes : Prop :=
  ∀ (buf : List Byte) (s : State), ShowsBuffer buf s → ∀ i : Instr,
    exec i s = .next { s with
      rspStatus := (respond (encode i) (packBus fun k => buf.getD k.toNat 0#8) buf.length).1
      rspData := (respond (encode i) (packBus fun k => buf.getD k.toNat 0#8) buf.length).2 }

/-! ## The invariant -/

/-- Every step keeps the invariant: the header space is canonical, `IN_LEN` fits its port, and the outputs hold one of the
responses of 10_state.md R25 (status 3 never). -/
def Obligations.StepKeepsInvariant : Prop := ∀ s t : State, s.Inv → step s = .next t → t.Inv

/-- Whatever the host does to the inputs keeps the invariant too (R235). The outputs between two commands are unspecified
(10_state.md R24, 93_implementation_defined.md U2): that they keep the shape of the last response while the host drives inputs is
the model's choice (assumption 5, a DESIGN CHOICE, unsafe). -/
def Obligations.HostKeepsInvariant : Prop :=
  ∀ s : State, s.Inv →
    (∀ bus, (s.driveHdr bus).Inv) ∧ (∀ n, (s.driveLen n).Inv) ∧ (∀ buf, (s.driveBuffer buf).Inv) ∧
    (∀ w, (s.present w).Inv)

/-- The invariant holds at reset. The reset values are the model's own choices (assumptions 2 to 6); the spec gives none (R32). -/
def Obligations.ResetMeetsInvariant : Prop := State.reset.Inv
end

