-- ==== Sys2Proof/Laws/Memory.lean ====
section
/-! SUPPORT. The header space: reads after writes, and the canonical form. -/

namespace Sys2Proof.Machine

/-- The canonical form of a non-empty list, taken apart. -/
theorem Memory.wfFrom_cons (lo k : Nat) (b : Byte) (m : Memory) :
    Memory.wfFrom lo ((k, b) :: m) = true ↔ lo ≤ k ∧ k < 16 ∧ b ≠ unlistedByte ∧ Memory.wfFrom (k + 1) m = true := by
  simp [Memory.wfFrom, and_assoc]

theorem Memory.wfFrom_mono {lo lo' : Nat} (m : Memory) (hle : lo' ≤ lo) (h : Memory.wfFrom lo m = true) :
    Memory.wfFrom lo' m = true := by
  cases m with
  | nil => rfl
  | cons c m =>
    rw [Memory.wfFrom_cons] at h ⊢
    exact ⟨hle.trans h.1, h.2⟩

/-- A key below all the listed ones reads as unlisted. -/
theorem Memory.lookup_below {lo : Nat} (m : Memory) (h : Memory.wfFrom lo m = true) (a : Nat) (ha : a < lo) :
    Memory.lookup m a = unlistedByte := by
  induction m generalizing lo with
  | nil => rfl
  | cons c m ih =>
    obtain ⟨k, b⟩ := c
    rw [Memory.wfFrom_cons] at h
    rw [Memory.lookup, if_neg (by omega)]
    exact ih h.2.2.2 (by omega)

/-- Putting a byte keeps the canonical form. -/
theorem Memory.wfFrom_put {lo : Nat} (m : Memory) (h : Memory.wfFrom lo m = true) (a : Nat) (v : Byte) (hlo : lo ≤ a)
    (ha : a < 16) : Memory.wfFrom lo (Memory.put m a v) = true := by
  induction m generalizing lo with
  | nil =>
    unfold Memory.put
    split
    · rfl
    · rw [Memory.wfFrom_cons]; exact ⟨hlo, ha, ‹_›, rfl⟩
  | cons c m ih =>
    obtain ⟨k, b⟩ := c
    have hc := (Memory.wfFrom_cons lo k b m).1 h
    unfold Memory.put
    split
    · split
      · exact h
      · rw [Memory.wfFrom_cons, Memory.wfFrom_cons]
        exact ⟨hlo, ha, ‹_›, by omega, hc.2⟩
    · split
      · subst a
        split
        · exact Memory.wfFrom_mono m (by omega) hc.2.2.2
        · rw [Memory.wfFrom_cons]; exact ⟨hlo, ha, ‹_›, hc.2.2.2⟩
      · rw [Memory.wfFrom_cons]
        exact ⟨hc.1, hc.2.1, hc.2.2.1, ih hc.2.2.2 (by omega)⟩

/-- What a key reads as after a put. -/
theorem Memory.lookup_put {lo : Nat} (m : Memory) (h : Memory.wfFrom lo m = true) (a c : Nat) (v : Byte) :
    Memory.lookup (Memory.put m a v) c = if c = a then v else Memory.lookup m c := by
  induction m generalizing lo with
  | nil =>
    unfold Memory.put
    by_cases hca : c = a
    · subst hca; split <;> simp_all [Memory.lookup]
    · rw [if_neg hca]; split <;> simp [Memory.lookup, Ne.symm hca]
  | cons d m ih =>
    obtain ⟨k, b⟩ := d
    have hd := (Memory.wfFrom_cons lo k b m).1 h
    have below := Memory.lookup_below m hd.2.2.2
    unfold Memory.put
    by_cases hlt : a < k
    · by_cases hv : v = unlistedByte
      · by_cases hca : c = a
        · subst hca; simp only [hlt, hv, if_true, Memory.lookup, if_neg (show ¬ k = c by omega)]
          exact below c (by omega)
        · simp [hlt, hv, hca]
      · by_cases hca : c = a
        · subst hca; simp [hlt, hv, Memory.lookup]
        · simp [hlt, hv, hca, Memory.lookup, Ne.symm hca]
    · by_cases hak : a = k
      · subst hak
        by_cases hv : v = unlistedByte
        · by_cases hca : c = a
          · subst hca; simp only [lt_irrefl, if_false, hv, if_true]
            exact below c (by omega)
          · simp [hv, hca, Memory.lookup, Ne.symm hca]
        · by_cases hca : c = a
          · subst hca; simp [hv, Memory.lookup]
          · simp [hv, hca, Memory.lookup, Ne.symm hca]
      · rw [if_neg hlt, if_neg hak, Memory.lookup, Memory.lookup, ih hd.2.2.2]
        by_cases hkc : k = c
        · subst hkc; simp [Ne.symm hak]
        · simp [hkc]

/-- A write of the host keeps the canonical form. -/
theorem Memory.wf_write (m : Memory) (h : m.wf = true) (i : Offset) (v : Byte) : (Memory.write m i v).wf = true :=
  Memory.wfFrom_put m h i.toNat v (Nat.zero_le _) i.isLt

/-- A read after a write gives the byte written, and every other byte as before. -/
theorem Memory.read_write (m : Memory) (h : m.wf = true) (i j : Offset) (v : Byte) :
    Memory.read (Memory.write m i v) j = if j = i then v else Memory.read m j := by
  simp only [Memory.read, Memory.write, Memory.lookup_put m h, BitVec.toNat_inj]

/-- Equal reads make equal header spaces, once both are in canonical form. -/
theorem Memory.ext_wfFrom {lo : Nat} (m n : Memory) (hm : Memory.wfFrom lo m = true) (hn : Memory.wfFrom lo n = true)
    (h : ∀ a, Memory.lookup m a = Memory.lookup n a) : m = n := by
  induction m generalizing lo n with
  | nil =>
    cases n with
    | nil => rfl
    | cons d n =>
      obtain ⟨k, b⟩ := d
      rw [Memory.wfFrom_cons] at hn
      have := h k
      simp [Memory.lookup] at this
      exact absurd this.symm hn.2.2.1
  | cons c m ih =>
    obtain ⟨j, x⟩ := c
    have hj := (Memory.wfFrom_cons lo j x m).1 hm
    cases n with
    | nil =>
      have := h j
      simp [Memory.lookup] at this
      exact absurd this hj.2.2.1
    | cons d n =>
      obtain ⟨k, b⟩ := d
      have hk := (Memory.wfFrom_cons lo k b n).1 hn
      have hlow : ∀ a, a ≤ j → Memory.lookup m a = unlistedByte := fun a ha =>
        Memory.lookup_below m hj.2.2.2 a (by omega)
      have hlow' : ∀ a, a ≤ k → Memory.lookup n a = unlistedByte := fun a ha =>
        Memory.lookup_below n hk.2.2.2 a (by omega)
      have hjk : j = k := by
        rcases Nat.lt_trichotomy j k with hlt | heq | hgt
        · have := h j
          simp [Memory.lookup, Nat.ne_of_gt hlt, hlow' j (by omega)] at this
          exact absurd this hj.2.2.1
        · exact heq
        · have := h k
          simp [Memory.lookup, Nat.ne_of_gt hgt, hlow k (by omega)] at this
          exact absurd this.symm hk.2.2.1
      subst hjk
      have hx : x = b := by simpa [Memory.lookup] using h j
      subst hx
      congr 1
      refine ih n hj.2.2.2 hk.2.2.2 fun a => ?_
      have := h a
      by_cases haj : j = a
      · subst haj; rw [hlow j le_rfl, hlow' j le_rfl]
      · simpa [Memory.lookup, haj] using this

/-- Filling lanes keeps the canonical form. -/
theorem Memory.wf_fill (f : Offset → Byte) (n : Nat) (m : Memory) (h : m.wf = true) : (Memory.fill f n m).wf = true := by
  induction n generalizing m with
  | zero => exact h
  | succ n ih => exact ih _ (Memory.wf_write m h _ _)

/-- What an offset reads as after the lanes below `n` were filled. -/
theorem Memory.read_fill (f : Offset → Byte) (n : Nat) (hn : n ≤ 16) (m : Memory) (h : m.wf = true) (j : Offset) :
    Memory.read (Memory.fill f n m) j = if j.toNat < n then f j else Memory.read m j := by
  induction n generalizing m with
  | zero => simp [Memory.fill]
  | succ n ih =>
    rw [Memory.fill, ih (by omega) _ (Memory.wf_write m h _ _), Memory.read_write m h]
    have hn16 : (BitVec.ofNat 4 n).toNat = n := by simp; omega
    by_cases hj : j = BitVec.ofNat 4 n
    · have : j.toNat = n := by rw [hj, hn16]
      rw [if_neg (by omega), if_pos hj, if_pos (by omega), hj]
    · have : j.toNat ≠ n := fun hjn => hj (BitVec.eq_of_toNat_eq (by rw [hn16, hjn]))
      by_cases hlt : j.toNat < n
      · simp [hlt, Nat.lt_succ_of_lt hlt]
      · rw [if_neg hlt, if_neg hj, if_neg (by omega)]

/-- The header space made of lanes is in canonical form. -/
@[simp] theorem Memory.wf_ofLanes (f : Offset → Byte) : (Memory.ofLanes f).wf = true := by
  rw [Memory.ofLanes]
  exact Memory.wf_fill f 16 [] rfl

/-- Each offset of the header space made of lanes reads as its lane. -/
@[simp] theorem Memory.read_ofLanes (f : Offset → Byte) (j : Offset) : Memory.read (Memory.ofLanes f) j = f j := by
  rw [Memory.ofLanes, Memory.read_fill f 16 le_rfl [] rfl, if_pos j.isLt]

end Sys2Proof.Machine
end

