-- ==== Sys2Proof/Laws/Bus.lean ====
section
/-! SUPPORT. The bus and its byte lanes. -/

namespace Sys2Proof.Machine

/-- A bus is determined by its 16 lanes. -/
theorem bus_ext {a b : BitVec 128} (h : ∀ i : Offset, busByte a i = busByte b i) : a = b := by
  apply BitVec.eq_of_getLsbD_eq
  intro k hk
  have hlane := congrArg (fun v : Byte => v.getLsbD (k % 8)) (h (BitVec.ofNat 4 (k / 8)))
  have hi : (BitVec.ofNat 4 (k / 8)).toNat = k / 8 := by simp; omega
  have hm : k % 8 < 8 := Nat.mod_lt _ (by decide)
  simp only [busByte, BitVec.getLsbD_extractLsb', hi, hm, decide_true, Bool.true_and,
    Nat.div_add_mod] at hlane
  exact hlane

/-- Lane `i` of a packed bus is the byte packed there. -/
@[simp] theorem busByte_packBus (f : Offset → Byte) (i : Offset) : busByte (packBus f) i = f i := by
  apply BitVec.eq_of_getLsbD_eq
  intro k hk
  have hi := i.isLt
  generalize hn : i.toNat = n at hi
  have hin : i = BitVec.ofNat 4 n := BitVec.eq_of_toNat_eq (by simp [hn]; omega)
  subst hin
  simp only [busByte, BitVec.getLsbD_extractLsb', hn, hk, decide_true, Bool.true_and, packBus, BitVec.getLsbD_append]
  interval_cases n <;> (repeat rw [if_neg (by omega)]) <;> (try rw [if_pos (by omega)]) <;>
    exact congrArg (BitVec.getLsbD _) (by omega)

/-- The bus a host drives is the bus on the port. -/
@[simp] theorem packBus_busByte (bus : BitVec 128) : packBus (busByte bus) = bus := bus_ext fun i => by simp

/-- Packing is determined by the lanes, and determines them. -/
theorem packBus_inj {f g : Offset → Byte} : packBus f = packBus g ↔ ∀ i, f i = g i :=
  ⟨fun h i => by rw [← busByte_packBus f i, h, busByte_packBus], fun h => congrArg packBus (funext h)⟩

end Sys2Proof.Machine
end

