-- ==== Sys2Proof/Laws/Config.lean ====
section
/-! SUPPORT. What is known of LEN_W and of the length the host shows. -/

namespace Sys2Proof.Machine

/-- `LEN_W >= 5` (00_scope.md R8). -/
theorem five_le_lenW : 5 ≤ Config.lenW := Nat.le_add_right 5 _

/-- The port holds the values 0 to 31 at least. -/
theorem thirtyTwo_le_two_pow_lenW : 32 ≤ 2 ^ Config.lenW := Nat.pow_le_pow_right (n := 2) (by decide) five_le_lenW

/-- What the host shows fits the port. -/
theorem lengthShown_lt (n : Nat) : lengthShown n < 2 ^ Config.lenW := by
  have h32 := thirtyTwo_le_two_pow_lenW
  unfold lengthShown
  split
  · assumption
  · have := Nat.mod_lt (Config.longLength n) (show 0 < 2 ^ Config.lenW - 16 by omega)
    omega

/-- A short buffer's length is shown as it is. -/
theorem lengthShown_of_lt {n : Nat} (h : n < 2 ^ Config.lenW) : lengthShown n = n := if_pos h

/-- A buffer of at least 16 bytes is shown as at least 16. -/
theorem sixteen_le_lengthShown {n : Nat} (h : 16 ≤ n) : 16 ≤ lengthShown n := by
  unfold lengthShown
  split <;> omega

end Sys2Proof.Machine
end

