-- ==== Sys2Proof/Laws/State.lean ====
section
/-! SUPPORT. What each update of State does to each field; each is true by unfolding the update, so that no proof unfolds a record update. -/

namespace Sys2Proof.Machine

variable (s : State)

@[simp] theorem State.respond_hdr (st : Status) (d : Word) : (s.respond st d).hdr = s.hdr := rfl
@[simp] theorem State.respond_inLen (st : Status) (d : Word) : (s.respond st d).inLen = s.inLen := rfl
@[simp] theorem State.respond_cmd (st : Status) (d : Word) : (s.respond st d).cmd = s.cmd := rfl
@[simp] theorem State.respond_rspStatus (st : Status) (d : Word) : (s.respond st d).rspStatus = st.code := rfl
@[simp] theorem State.respond_rspData (st : Status) (d : Word) : (s.respond st d).rspData = d := rfl
@[simp] theorem State.respond_inputsHeld (st : Status) (d : Word) : (s.respond st d).inputsHeld = s.inputsHeld := rfl

@[simp] theorem State.raise_hdr (e : CommandError) : (s.raise e).hdr = s.hdr := rfl
@[simp] theorem State.raise_inLen (e : CommandError) : (s.raise e).inLen = s.inLen := rfl
@[simp] theorem State.raise_cmd (e : CommandError) : (s.raise e).cmd = s.cmd := rfl
@[simp] theorem State.raise_rspStatus (e : CommandError) : (s.raise e).rspStatus = e.status.code := rfl
@[simp] theorem State.raise_rspData (e : CommandError) : (s.raise e).rspData = e.data := rfl
@[simp] theorem State.raise_inputsHeld (e : CommandError) : (s.raise e).inputsHeld = s.inputsHeld := rfl

@[simp] theorem State.driveHdr_hdr (bus : BitVec 128) : (s.driveHdr bus).hdr = Memory.ofLanes (busByte bus) := rfl
@[simp] theorem State.driveHdr_inLen (bus : BitVec 128) : (s.driveHdr bus).inLen = s.inLen := rfl
@[simp] theorem State.driveHdr_cmd (bus : BitVec 128) : (s.driveHdr bus).cmd = s.cmd := rfl
@[simp] theorem State.driveHdr_rspStatus (bus : BitVec 128) : (s.driveHdr bus).rspStatus = s.rspStatus := rfl
@[simp] theorem State.driveHdr_rspData (bus : BitVec 128) : (s.driveHdr bus).rspData = s.rspData := rfl
@[simp] theorem State.driveHdr_inputsHeld (bus : BitVec 128) : (s.driveHdr bus).inputsHeld = s.inputsHeld := rfl

@[simp] theorem State.driveLen_hdr (n : Nat) : (s.driveLen n).hdr = s.hdr := rfl
@[simp] theorem State.driveLen_inLen (n : Nat) : (s.driveLen n).inLen = lengthShown n := rfl
@[simp] theorem State.driveLen_cmd (n : Nat) : (s.driveLen n).cmd = s.cmd := rfl
@[simp] theorem State.driveLen_rspStatus (n : Nat) : (s.driveLen n).rspStatus = s.rspStatus := rfl
@[simp] theorem State.driveLen_rspData (n : Nat) : (s.driveLen n).rspData = s.rspData := rfl
@[simp] theorem State.driveLen_inputsHeld (n : Nat) : (s.driveLen n).inputsHeld = s.inputsHeld := rfl

@[simp] theorem State.driveBuffer_hdr (buf : List Byte) : (s.driveBuffer buf).hdr = Memory.ofLanes (laneOf buf) := rfl
@[simp] theorem State.driveBuffer_inLen (buf : List Byte) : (s.driveBuffer buf).inLen = lengthShown buf.length := rfl
@[simp] theorem State.driveBuffer_cmd (buf : List Byte) : (s.driveBuffer buf).cmd = s.cmd := rfl
@[simp] theorem State.driveBuffer_rspStatus (buf : List Byte) : (s.driveBuffer buf).rspStatus = s.rspStatus := rfl
@[simp] theorem State.driveBuffer_rspData (buf : List Byte) : (s.driveBuffer buf).rspData = s.rspData := rfl
@[simp] theorem State.driveBuffer_inputsHeld (buf : List Byte) : (s.driveBuffer buf).inputsHeld = s.inputsHeld := rfl

@[simp] theorem State.present_hdr (w : CommandWord) : (s.present w).hdr = s.hdr := rfl
@[simp] theorem State.present_inLen (w : CommandWord) : (s.present w).inLen = s.inLen := rfl
@[simp] theorem State.present_cmd (w : CommandWord) : (s.present w).cmd = w := rfl
@[simp] theorem State.present_rspStatus (w : CommandWord) : (s.present w).rspStatus = s.rspStatus := rfl
@[simp] theorem State.present_rspData (w : CommandWord) : (s.present w).rspData = s.rspData := rfl
@[simp] theorem State.present_inputsHeld (w : CommandWord) : (s.present w).inputsHeld = true := rfl

@[simp] theorem State.withFetchWord_hdr (nbits w : Nat) : (s.withFetchWord nbits w).hdr = s.hdr := rfl
@[simp] theorem State.withFetchWord_inLen (nbits w : Nat) : (s.withFetchWord nbits w).inLen = s.inLen := rfl
@[simp] theorem State.withFetchWord_cmd (nbits w : Nat) : (s.withFetchWord nbits w).cmd = commandOfTable nbits w := rfl
@[simp] theorem State.withFetchWord_rspStatus (nbits w : Nat) : (s.withFetchWord nbits w).rspStatus = s.rspStatus := rfl
@[simp] theorem State.withFetchWord_rspData (nbits w : Nat) : (s.withFetchWord nbits w).rspData = s.rspData := rfl
@[simp] theorem State.withFetchWord_inputsHeld (nbits w : Nat) : (s.withFetchWord nbits w).inputsHeld = true := rfl

/-! A header byte is read from the header space alone, so an update that leaves it leaves the byte. -/

@[simp] theorem State.respond_byteAt (st : Status) (d : Word) (i : Offset) : (s.respond st d).byteAt i = s.byteAt i := rfl
@[simp] theorem State.raise_byteAt (e : CommandError) (i : Offset) : (s.raise e).byteAt i = s.byteAt i := rfl
@[simp] theorem State.driveLen_byteAt (n : Nat) (i : Offset) : (s.driveLen n).byteAt i = s.byteAt i := rfl
@[simp] theorem State.present_byteAt (w : CommandWord) (i : Offset) : (s.present w).byteAt i = s.byteAt i := rfl
@[simp] theorem State.present_inHdr (w : CommandWord) : (s.present w).inHdr = s.inHdr := rfl
@[simp] theorem State.driveLen_inHdr (n : Nat) : (s.driveLen n).inHdr = s.inHdr := rfl
@[simp] theorem State.respond_inHdr (st : Status) (d : Word) : (s.respond st d).inHdr = s.inHdr := rfl

/-! Two updates in a row. -/

@[simp] theorem State.respond_respond (st st' : Status) (d d' : Word) :
    (s.respond st d).respond st' d' = s.respond st' d' := rfl

end Sys2Proof.Machine
end

