-- ==== Sys2Proof/Laws/Ports.lean ====
section
/-! SUPPORT. What each operation on the ports does to the header bytes, and that the host can always meet its duties. -/

namespace Sys2Proof.Machine

/-- After the host drives a bus, the header byte at `i` is lane `i` of it. -/
@[simp] theorem State.driveHdr_byteAt (s : State) (bus : BitVec 128) (i : Offset) :
    (s.driveHdr bus).byteAt i = busByte bus i := by
  simp only [State.byteAt, State.driveHdr_hdr, Memory.read_ofLanes]

/-- After the host drives a buffer, the header byte at `i` is the buffer's lane. -/
@[simp] theorem State.driveBuffer_byteAt (s : State) (buf : List Byte) (i : Offset) :
    (s.driveBuffer buf).byteAt i = laneOf buf i := by
  simp only [State.byteAt, State.driveBuffer_hdr, Memory.read_ofLanes]

/-- Lane `i` of the port is the header byte at `i`. -/
@[simp] theorem State.busByte_inHdr (s : State) (i : Offset) : busByte s.inHdr i = s.byteAt i := busByte_packBus _ i

/-- Equal ports, equal header bytes. -/
theorem State.inHdr_eq_iff (s t : State) : s.inHdr = t.inHdr ↔ ∀ i : Offset, s.byteAt i = t.byteAt i := packBus_inj

/-- A host that drives a buffer meets duties 1 and 2 of 70_reset_and_hazards.md R235. -/
theorem showsBuffer_driveBuffer (s : State) (buf : List Byte) : ShowsBuffer buf (s.driveBuffer buf) := by
  refine ⟨fun i b hb => ?_, fun h => ?_, fun h => ⟨?_, ?_⟩⟩
  · rw [State.driveBuffer_byteAt, laneOf, List.getD_eq_getElem?_getD, hb, Option.getD_some]
  · rw [State.driveBuffer_inLen, lengthShown_of_lt h]
  · rw [State.driveBuffer_inLen]
    have := thirtyTwo_le_two_pow_lenW
    exact sixteen_le_lengthShown (by omega)
  · rw [State.driveBuffer_inLen]
    exact lengthShown_lt _

/-- Duty 1 in one line: the port shows fewer than 16 exactly where the buffer is shorter than 16. -/
theorem ShowsBuffer.lt_sixteen_iff {buf : List Byte} {s : State} (h : ShowsBuffer buf s) :
    s.inLen < 16 ↔ buf.length < 16 := by
  have h32 := thirtyTwo_le_two_pow_lenW
  obtain ⟨-, hshort, hlong⟩ := h
  by_cases hfit : buf.length < 2 ^ Config.lenW
  · rw [hshort hfit]
  · have := hlong (by omega)
    omega

/-- The presented command is what the block answers next. -/
@[simp] theorem fetchCommand_present (s : State) (w : CommandWord) : fetchCommand (s.present w) = .ok w := rfl

theorem fetchCommand_of_held {s : State} (h : s.inputsHeld = true) : fetchCommand s = .ok s.cmd := if_pos h

theorem fetchCommand_of_not_held {s : State} (h : s.inputsHeld = false) : fetchCommand s = .error .inputsChanged := by
  simp [fetchCommand, h]

end Sys2Proof.Machine
end

