-- ==== Sys2Proof/Laws/Answer.lean ====
section
/-! SUPPORT. What a command can do: one spec lemma for the shared answer, one for each view, and the inversion of `exec`. -/

namespace Sys2Proof.Machine

/-- The fields of the header, read through their index. -/
@[simp] theorem State.headerInfo_prgRomUnits (s : State) : s.headerInfo.prgRomUnits = s.byteAt 4#4 := rfl
@[simp] theorem State.headerInfo_chrRomUnits (s : State) : s.headerInfo.chrRomUnits = s.byteAt 5#4 := rfl
@[simp] theorem State.headerInfo_magic (s : State) :
    s.headerInfo.magic = #v[s.byteAt 0#4, s.byteAt 1#4, s.byteAt 2#4, s.byteAt 3#4] := rfl
@[simp] theorem State.headerInfo_flags (s : State) :
    s.headerInfo.flags = #v[s.byteAt 6#4, s.byteAt 7#4, s.byteAt 8#4, s.byteAt 9#4, s.byteAt 10#4] := rfl
@[simp] theorem State.headerInfo_tail (s : State) :
    s.headerInfo.tail = #v[s.byteAt 11#4, s.byteAt 12#4, s.byteAt 13#4, s.byteAt 14#4, s.byteAt 15#4] := rfl

/-- The shared answer, said once: the length check, then the result; it always answers a next state. -/
theorem State.answer_eq (s : State) (result : HeaderInfo → Word) :
    s.answer result =
      .next (if s.inLen < 16 then s.raise (.truncated s.inLen) else s.respond .ok (result s.headerInfo)) := by
  unfold State.answer State.decodeHeader
  by_cases h : s.inLen < 16 <;> simp [h]

/-- The result an operation gives on a header; READ_BYTE's is its operand byte. -/
def execResult (i : Instr) (s : State) : Word :=
  match i with
  | .decode => 0#32
  | .isMagicValid => zext32 (boolCode s.headerInfo.magicValid)
  | .prgRomDesc => zext32 s.headerInfo.prgPages
  | .chrRomDesc => zext32 s.headerInfo.chrPages
  | .prgRamKb => s.headerInfo.prgRamKb
  | .tvStdA => zext32 s.headerInfo.tvA.code
  | .tvStdB => zext32 s.headerInfo.tvB.code
  | .prgRamPresent => zext32 (boolCode s.headerInfo.prgRamPresent)
  | .noBusConflicts => zext32 (boolCode s.headerInfo.noBusConflicts)
  | .isTailValid => zext32 (boolCode s.headerInfo.tailValid)
  | .readByte idx => zext32 (s.byteAt idx)

/-- What every instruction does, said once: `TRUNCATED` below 16 bytes, else `OK` with its result. -/
theorem exec_eq (i : Instr) (s : State) :
    exec i s = .next (if s.inLen < 16 then s.raise (.truncated s.inLen) else s.respond .ok (execResult i s)) := by
  cases i <;> exact State.answer_eq s _

/-- What a step can do, said once: refuse where the inputs change, answer a reserved word, or answer an instruction. -/
theorem step_cases (s : State) :
    (s.inputsHeld = false ∧ step s = .refused .inputsChanged) ∨
    (s.inputsHeld = true ∧ (∃ r, decodeCommand s.cmd = .error r) ∧ step s = .next (s.raise .badOp)) ∨
    (s.inputsHeld = true ∧ ∃ i, decodeCommand s.cmd = .ok i ∧ step s = exec i s) := by
  unfold step
  cases hh : s.inputsHeld with
  | false => simp [fetchCommand_of_not_held hh]
  | true =>
    rw [fetchCommand_of_held hh]
    cases hd : decodeCommand s.cmd with
    | error r => exact .inr (.inl ⟨rfl, ⟨r, rfl⟩, by simp [hd, answerReserved]⟩)
    | ok i => exact .inr (.inr ⟨rfl, i, rfl, by simp [hd]⟩)

/-! ## The views on the header bytes -/

/-- The magic view (42_magic_validator.md R120). -/
theorem magicValid_eq (s : State) : s.headerInfo.magicValid =
    decide (s.byteAt 0#4 = 0x4E#8 ∧ s.byteAt 1#4 = 0x45#8 ∧ s.byteAt 2#4 = 0x53#8 ∧ s.byteAt 3#4 = 0x1A#8) := by
  rw [Bool.eq_iff_iff]
  simp [HeaderInfo.magicValid, and_assoc]

/-- The tail view (45_tail_validator.md R190). -/
theorem tailValid_eq (s : State) : s.headerInfo.tailValid =
    decide (s.byteAt 11#4 = 0#8 ∧ s.byteAt 12#4 = 0#8 ∧ s.byteAt 13#4 = 0#8 ∧ s.byteAt 14#4 = 0#8 ∧ s.byteAt 15#4 = 0#8) := by
  rw [Bool.eq_iff_iff]
  simp [HeaderInfo.tailValid, and_assoc]

/-- The page counts (43_rom_size_decoder.md R140). -/
theorem prgPages_eq (s : State) : s.headerInfo.prgPages = pages (s.byteAt 4#4) := rfl
theorem chrPages_eq (s : State) : s.headerInfo.chrPages = pages (s.byteAt 5#4) := rfl

/-- The bit-field views (44_bitfield_classifier.md R160 to R168). -/
theorem prgRamKb_eq (s : State) : s.headerInfo.prgRamKb =
    if s.byteAt 8#4 = 0#8 then 8#32 else zext32 (s.byteAt 8#4) * 8#32 := rfl
theorem tvA_eq (s : State) : s.headerInfo.tvA =
    if s.byteAt 9#4 = 0#8 then .ntsc else if s.byteAt 9#4 = 1#8 then .pal else .unknown := rfl
theorem tvB_eq (s : State) : s.headerInfo.tvB =
    if (s.byteAt 10#4).extractLsb' 0 2 = 0#2 then .ntsc
    else if (s.byteAt 10#4).extractLsb' 0 2 = 1#2 then .pal else .dualCompatible := rfl
theorem prgRamPresent_eq (s : State) : s.headerInfo.prgRamPresent = !(s.byteAt 10#4).getLsbD 4 := rfl
theorem noBusConflicts_eq (s : State) : s.headerInfo.noBusConflicts = (s.byteAt 10#4).getLsbD 5 := rfl

/-! ## Codes and widths -/

/-- Zero extension keeps the value. -/
@[simp] theorem zext32_toNat {n : Nat} (hn : n ≤ 32) (v : BitVec n) : (zext32 v).toNat = v.toNat := by
  have := v.isLt
  have : 2 ^ n ≤ 2 ^ 32 := Nat.pow_le_pow_right (by decide) hn
  simp only [zext32, BitVec.toNat_setWidth]
  omega

/-- The page count as a number (R140). -/
theorem pages_toNat (c : Byte) : (pages c).toNat = if 1 ≤ c.toNat ∧ c.toNat ≤ 64 then c.toNat else 0 := by
  unfold pages
  split
  · simp only [BitVec.toNat_setWidth]; omega
  · rfl

/-- A boolean's code as a number. -/
theorem boolCode_toNat (b : Bool) : (boolCode b).toNat = if b then 1 else 0 := by cases b <;> rfl

/-- The data of `Truncated(got)` (60_exceptions.md R200), for every `got` that can occur. -/
theorem truncated_data (got : Nat) (h : got < 16) : (CommandError.truncated got).data = BitVec.ofNat 32 (0x1000 + got) := by
  interval_cases got <;> rfl

end Sys2Proof.Machine
end

