-- ==== Sys2Proof/Laws/PerInstr.lean ====
section
/-! SUPPORT. Statements made per instruction: the word of each instruction is legal, and its fields are in range. -/

namespace Sys2Proof.Laws.LegalEncoding

/-- The instruction's fields are in range and its word is legal (30_encoding.md R66). -/
def Statement (i : Instr) : Prop := i.wf = true ∧ legalWord (encode i) = true

theorem decode : Statement .decode := ⟨rfl, by decide⟩
theorem isMagicValid : Statement .isMagicValid := ⟨rfl, by decide⟩
theorem prgRomDesc : Statement .prgRomDesc := ⟨rfl, by decide⟩
theorem chrRomDesc : Statement .chrRomDesc := ⟨rfl, by decide⟩
theorem prgRamKb : Statement .prgRamKb := ⟨rfl, by decide⟩
theorem tvStdA : Statement .tvStdA := ⟨rfl, by decide⟩
theorem tvStdB : Statement .tvStdB := ⟨rfl, by decide⟩
theorem prgRamPresent : Statement .prgRamPresent := ⟨rfl, by decide⟩
theorem noBusConflicts : Statement .noBusConflicts := ⟨rfl, by decide⟩
theorem isTailValid : Statement .isTailValid := ⟨rfl, by decide⟩
theorem readByte (idx : Offset) : Statement (.readByte idx) := by
  unfold Statement
  revert idx
  decide

end Sys2Proof.Laws.LegalEncoding
end

