-- ==== Sys2Proof/Tests/Slice0.lean ====
section
/-! SUPPORT. Tests: the expected results are the vectors of spec/95_test_vectors.md and hand readings of the rules, named in each
comment. After them, a witness for each statement that has hypotheses. -/

namespace Sys2Proof.Tests

open Sys2Proof.Machine

/-! ## Helpers -/

/-- The header space of a list of bytes from an offset on. -/
def cellsFrom : Nat → List Byte → Memory
  | _, [] => []
  | a, b :: bs => Memory.put (cellsFrom (a + 1) bs) a b

/-- A state that shows a header and a length, with a command presented. -/
def shown (hdr : List Byte) (len : Nat) (w : CommandWord) : State :=
  { State.reset with hdr := cellsFrom 0 hdr, inLen := len, cmd := w }

/-- The source's end-to-end header with the bytes from offset `k` on replaced (`E2E` of 95_test_vectors.md). -/
def e2e (k : Nat) (bs : List Byte) : List Byte :=
  let base : List Byte := [0x4E, 0x45, 0x53, 0x1A, 1, 1, 0, 0, 0, 0, 0, 0, 0, 0, 0, 0]
  base.take k ++ bs ++ base.drop (k + bs.length)

/-- The header whose byte k is 0x11*k (L2-11). -/
def ramp : List Byte := (List.range 16).map fun k => BitVec.ofNat 8 (0x11 * k)

/-- The response of an outcome. -/
def resp : Host.Outcome State Fault Refusal → Option (Nat × Nat)
  | .next t => some (t.rspStatus.toNat, t.rspData.toNat)
  | .fault _ => none
  | .refused _ => none

/-- The response of one step on a header, a length and a command. -/
def answered (hdr : List Byte) (len : Nat) (w : CommandWord) : Option (Nat × Nat) := resp (step (shown hdr len w))

/-! ## WellFormed: an ill-formed term for each check -/

/-- R64: op 0xB is reserved. -/
theorem test_wf_reserved_op : opAssigned 0x0B#8 = false ∧ legalWord 0x0B#8 = false ∧ opAssigned 0xFA#8 = true := by decide

/-- R65: DECODE with idx 1 is reserved, READ_BYTE with idx 1 is not. -/
theorem test_wf_reserved_idx : idxAllowed 0x10#8 = false ∧ legalWord 0x10#8 = false ∧ idxAllowed 0x1A#8 = true := by decide

/-- R81: operands out of range do not assemble. -/
theorem test_wf_pseudo : (Pseudo.readMagic 4).expand = none ∧ (Pseudo.readFlags 5).expand = none ∧
    (Pseudo.readTail 5).expand = none := by decide

/-! ## Decode: every constructor by a word from the opcode map (R61) -/

theorem test_decode_words :
    decodeCommand 0b00000000#8 = .ok .decode ∧ decodeCommand 0b00000001#8 = .ok .isMagicValid ∧
    decodeCommand 0b00000010#8 = .ok .prgRomDesc ∧ decodeCommand 0b00000011#8 = .ok .chrRomDesc ∧
    decodeCommand 0b00000100#8 = .ok .prgRamKb ∧ decodeCommand 0b00000101#8 = .ok .tvStdA ∧
    decodeCommand 0b00000110#8 = .ok .tvStdB ∧ decodeCommand 0b00000111#8 = .ok .prgRamPresent ∧
    decodeCommand 0b00001000#8 = .ok .noBusConflicts ∧ decodeCommand 0b00001001#8 = .ok .isTailValid ∧
    decodeCommand 0b01001010#8 = .ok (.readByte 4#4) ∧ decodeCommand 0b11111010#8 = .ok (.readByte 15#4) := by decide

/-- R81: the words of the pseudo-instructions' table. -/
theorem test_encode_read_byte : encode (.readByte 2#4) = 0x2A#8 ∧ encode (.readByte 11#4) = 0xBA#8 := by decide

/-- The table's rows, as the host asks for them. -/
theorem test_decodeTableWord : decodeTableWord 8 0x09 = some .isTailValid ∧ decodeTableWord 8 0x4A = some (.readByte 4#4) ∧
    decodeTableWord 8 0x1C = none := by decide

/-! ## One step of each instruction -/

/-- L1-02, L2-10: DECODE succeeds on any content. -/
theorem test_decode_any_content : answered (List.replicate 16 0xFF#8) 16 0x00#8 = some (0, 0) := by decide
/-- L1-01: got = 15, needed = 16. -/
theorem test_decode_truncated : answered ramp 15 0x00#8 = some (1, 0x100F) ∧ answered ramp 0 0x00#8 = some (1, 0x1000) := by
  decide
/-- L1-04, L2-22: the signature, and the signature reversed. -/
theorem test_magic : answered (e2e 0 []) 16 0x01#8 = some (0, 1) ∧
    answered (e2e 0 [0x1A, 0x53, 0x45, 0x4E]) 16 0x01#8 = some (0, 0) := by decide
/-- L2-23, L2-24: one bit off, in the first and in the last byte. -/
theorem test_magic_one_bit : answered (e2e 0 [0xCE]) 16 0x01#8 = some (0, 0) ∧ answered (e2e 3 [0x1B]) 16 0x01#8 = some (0, 0) := by
  decide
/-- L2-37, L2-38: codes 0x40 and 0x41. -/
theorem test_prg_rom_bounds : answered (e2e 4 [0x40]) 16 0x02#8 = some (0, 64) ∧ answered (e2e 4 [0x41]) 16 0x02#8 = some (0, 0) := by
  decide
/-- L1-14, L2-30: codes 8 and 0; byte 4 has no effect. -/
theorem test_chr_rom : answered (e2e 4 [0x41, 0x08]) 16 0x03#8 = some (0, 8) ∧ answered (e2e 5 [0x00]) 16 0x03#8 = some (0, 0) := by
  decide
/-- L2-50, L2-51, L2-54. -/
theorem test_prg_ram_kb : answered (e2e 8 [0x00]) 16 0x04#8 = some (0, 8) ∧ answered (e2e 8 [0x01]) 16 0x04#8 = some (0, 8) ∧
    answered (e2e 8 [0xFF]) 16 0x04#8 = some (0, 0x7F8) := by decide
/-- L1-08, L2-58: the whole byte decides. -/
theorem test_tv_a : answered (e2e 9 [0x01]) 16 0x05#8 = some (0, 1) ∧ answered (e2e 9 [0x81]) 16 0x05#8 = some (0, 2) ∧
    answered (e2e 9 [0x00]) 16 0x05#8 = some (0, 0) := by decide
/-- L2-60 to L2-62. -/
theorem test_tv_b : answered (e2e 10 [0x30]) 16 0x06#8 = some (0, 0) ∧ answered (e2e 10 [0xFD]) 16 0x06#8 = some (0, 1) ∧
    answered (e2e 10 [0xFE]) 16 0x06#8 = some (0, 2) := by decide
/-- L2-64, L1-10: present when CLEAR. -/
theorem test_prg_ram_present : answered (e2e 10 [0xEF]) 16 0x07#8 = some (0, 1) ∧
    answered (e2e 10 [0x10]) 16 0x07#8 = some (0, 0) := by decide
/-- L2-66, L2-67: the literal sense. -/
theorem test_no_bus_conflicts : answered (e2e 10 [0x30]) 16 0x08#8 = some (0, 1) ∧
    answered (e2e 10 [0xDF]) 16 0x08#8 = some (0, 0) := by decide
/-- L2-83: byte 7 is no tail. -/
theorem test_tail_valid : answered (e2e 7 [0xFF]) 16 0x09#8 = some (0, 1) := by decide
/-- L2-81, L2-82: each end of the tail. -/
theorem test_tail_invalid : answered (e2e 15 [0x01]) 16 0x09#8 = some (0, 0) ∧ answered (e2e 11 [0xFF]) 16 0x09#8 = some (0, 0) := by
  decide
/-- L2-11: both ends and one byte between. -/
theorem test_read_byte : answered ramp 16 0x0A#8 = some (0, 0x00) ∧ answered ramp 16 0xFA#8 = some (0, 0xFF) ∧
    answered ramp 255 0x5A#8 = some (0, 0x55) := by decide
/-- L2-06: READ_BYTE is length-checked. -/
theorem test_read_byte_truncated : answered (e2e 0 []) 15 0x0A#8 = some (1, 0x100F) := by decide
/-- L2-01, L2-04, L2-05: reserved words, and BAD_OP before TRUNCATED. -/
theorem test_bad_op : answered (e2e 0 []) 16 0x0B#8 = some (2, 0) ∧ answered (e2e 0 []) 16 0xF9#8 = some (2, 0) ∧
    answered (e2e 0 []) 3 0x1C#8 = some (2, 0) := by decide

/-! ## Beside the step -/

/-- L1-05, L1-06, L2-34: the strings. -/
theorem test_strings : descString 1 16 = "(1x16kbpages)" ∧ descString 0 8 = "(Unknown)" ∧ descString 10 8 = "(10x8kbpages)" := by
  decide
/-- R22: byte 0 in the lowest lane, byte 15 in the top one. -/
theorem test_bus : (shown ramp 16 0x00#8).inHdr = 0xFFEEDDCCBBAA99887766554433221100#128 := by decide
/-- The function of R33 on the ports (P2's line 7, header byte 8 = 0xFF). -/
theorem test_respond : respond 0x04#8 (shown (e2e 8 [0xFF]) 40 0x04#8).inHdr 40 = (0#2, 0x7F8#32) := by decide
/-- R33: the trace of a host program of one reserved word (P3's line 5: BAD_OP over TRUNCATED). -/
theorem test_program : (match runProgram [.cmd 0x11#8] (shown ramp 15 0x00#8) with
    | .next (_, trace) => trace.map Prod.snd
    | .fault _ => []
    | .refused _ => []) = [⟨2#2, 0#32⟩] := by decide
/-- R80: a comment, a mnemonic, an offset in each base, and an offset out of range. -/
theorem test_assemble_read_byte : assembleLine "READ_BYTE 0xF ; last" = .ok [.cmd 0xFA#8] ∧
    assembleLine "READ_BYTE 4" = .ok [.cmd 0x4A#8] ∧ assembleLine "READ_BYTE 16" = .error .outOfRange ∧
    assembleLine "; nothing" = .ok [] := by decide
/-- R80, R81: directives and pseudo-instructions (P3, L2-15). -/
theorem test_assemble_lines : assembleLine ".cmd 0x11" = .ok [.cmd 0x11#8] ∧ assembleLine ".len 15" = .ok [.len 15] ∧
    assembleLine "READ_TAIL 0" = .ok [.cmd 0xBA#8] ∧ assembleLine "READ_TAIL 5" = .error .outOfRange ∧
    assembleLine "IS_TAIL_VALID" = .ok [.cmd 0x09#8] ∧ assembleLine "NOP" = .error .unknownWord := by decide
/-- R9, R80: hexadecimal in either case, decimal without hexadecimal digits, no number without digits. -/
theorem test_numbers : readNumber "0xfA".toList = some 0xFA ∧ readNumber "255".toList = some 255 ∧
    readNumber "1A".toList = none ∧ readNumber "0x".toList = none ∧ readNumber "0xG".toList = none := by decide
/-- R80: `.hdr` takes sixteen bytes in hexadecimal. -/
theorem test_assemble_hdr : assembleLine ".hdr 4E 45 53 1A 01 01 00 00 00 00 00 00 00 00 00 FF" =
      .ok [.hdr #v[0x4E, 0x45, 0x53, 0x1A, 1, 1, 0, 0, 0, 0, 0, 0, 0, 0, 0, 0xFF]] ∧
    assembleLine ".hdr 4E 45" = .error .badOperands := by decide
/-- The host presents a table word right after reset: IN_LEN is 0 there, so DECODE is TRUNCATED with got 0 (R200). -/
theorem test_first_command : resp (step (State.reset.withFetchWord 8 0x00)) = some (1, 0x1000) := by decide
/-- 93_implementation_defined.md U3: no step where the inputs change. -/
theorem test_inputs_change : step { shown ramp 16 0x00#8 with inputsHeld := false } = .refused .inputsChanged := rfl
/-- A write of the unlisted byte takes the cell out; memory in canonical form. -/
theorem test_memory_canonical : Memory.write (cellsFrom 0 [0, 5, 0, 7]) 1#4 0#8 = [(3, 7#8)] ∧
    (cellsFrom 0 (e2e 0 [])).wf = true ∧ Memory.wf [(3, 1#8), (2, 1#8)] = false ∧ Memory.wf [(3, 0#8)] = false ∧
    Memory.wf [(16, 1#8)] = false := by decide

/-! ## Witnesses: states and operands that meet the hypotheses of each statement, at the edges of its clauses -/

/-- DecodeEncodeAgree. -/
theorem witness_decodeEncodeAgree : decodeCommand 0xFA#8 = .ok (.readByte 15#4) := by decide
/-- LegalWordsAreTwentySix, BadOpBeforeTruncated: a held reserved word, below and at 16 bytes. -/
theorem witness_reserved_word : (shown ramp 15 0x0B#8).inputsHeld = true ∧ legalWord (shown ramp 15 0x0B#8).cmd = false ∧
    (shown ramp 15 0x0B#8).inLen < 16 ∧ legalWord (shown ramp 15 0x0A#8).cmd = true := by decide
/-- ReservedOpAnswersBadOp: the least and the greatest reserved op. -/
theorem witness_reservedOp : 0xB ≤ (shown ramp 16 0x0B#8).cmd.toNat % 16 ∧ 0xB ≤ (shown ramp 16 0xFF#8).cmd.toNat % 16 ∧
    (shown ramp 16 0x0B#8).inputsHeld = true := by decide
/-- ReservedIdxAnswersBadOp: the ends of both ranges. -/
theorem witness_reservedIdx : (shown ramp 16 0x10#8).cmd.toNat % 16 ≤ 0x9 ∧ (shown ramp 16 0x10#8).cmd.toNat / 16 ≠ 0 ∧
    (shown ramp 16 0xF9#8).cmd.toNat % 16 ≤ 0x9 ∧ (shown ramp 16 0xF9#8).cmd.toNat / 16 ≠ 0 ∧
    (shown ramp 16 0xF9#8).inputsHeld = true := by decide
/-- PseudoInstructionsExpand: the last k inside and the first outside. -/
theorem witness_pseudo : (Pseudo.readMagic 3).expand = some (.readByte 3#4) ∧ (Pseudo.readMagic 4).expand = none ∧
    (Pseudo.readFlags 4).expand = some (.readByte 10#4) ∧ (Pseudo.readTail 4).expand = some (.readByte 15#4) ∧
    (Pseudo.readTail 5).expand = none := by decide
/-- StepRunsDecodedInstruction: a word of each kind. -/
theorem witness_stepRunsDecoded : (shown ramp 16 0xFA#8).inputsHeld = true ∧
    decodeCommand (shown ramp 16 0xFA#8).cmd = .ok (.readByte 15#4) ∧
    decodeCommand (shown ramp 16 0x11#8).cmd = .error (.idx 1#4 1#4) ∧
    decodeCommand (shown ramp 16 0xFB#8).cmd = .error (.op 0xB#4 15#4) := by decide
/-- NoStepOnlyWhenInputsChange, StepIsExecute, BadOpExactlyForReservedWords, OnlyTwoErrors: both cases of the hypothesis. -/
theorem witness_inputsHeld : (shown ramp 16 0x00#8).inputsHeld = true ∧
    ({ shown ramp 16 0x00#8 with inputsHeld := false } : State).inputsHeld = false := by decide
/-- TruncatedRecordsNeededAndGot: got 15 and got 0. -/
theorem witness_truncated : (shown ramp 15 0x09#8).inputsHeld = true ∧ legalWord (shown ramp 15 0x09#8).cmd = true ∧
    (shown ramp 15 0x09#8).inLen = 15 ∧ (shown ramp 0 0x09#8).inLen = 0 := by decide
/-- ErrorsCarryNoView: two headers, one command, one length; an error of each kind. -/
theorem witness_errorsCarryNoView :
    (∃ s', step (shown ramp 15 0x01#8) = .next s' ∧ s'.rspStatus = 1#2) ∧
    (∃ s', step (shown ramp 16 0x0B#8) = .next s' ∧ s'.rspStatus = 2#2) ∧
    (shown ramp 15 0x01#8).inputsHeld = true ∧ (shown (e2e 0 []) 15 0x01#8).inputsHeld = true ∧
    (shown ramp 15 0x01#8).cmd = (shown (e2e 0 []) 15 0x01#8).cmd ∧
    (shown ramp 15 0x01#8).inLen = (shown (e2e 0 []) 15 0x01#8).inLen ∧
    (shown ramp 15 0x01#8).byteAt 0#4 ≠ (shown (e2e 0 []) 15 0x01#8).byteAt 0#4 :=
  ⟨⟨_, rfl, by decide⟩, ⟨_, rfl, by decide⟩, rfl, rfl, rfl, rfl, by decide⟩
/-- ErrorsLeaveNothingBehind: a step that ends in an error. -/
theorem witness_errorsLeaveNothing : ∃ t, step (shown ramp 3 0x05#8) = .next t ∧ t.rspStatus ≠ 0#2 := ⟨_, rfl, by decide⟩
/-- Every OperationRule, ReadByteReturnsTheRawByte, ResultsAreZeroExtended: a length on each side of 16, and a held word with the
op and another idx. -/
theorem witness_operationRule : 16 ≤ (shown ramp 16 0x04#8).inLen ∧ (shown ramp 15 0x04#8).inLen < 16 ∧
    (shown ramp 16 0x14#8).inputsHeld = true ∧ 1#4 ≠ 0#4 ∧ (shown ramp 16 0x14#8).cmd = 1#4 ++ 0x4#4 := by decide
/-- MagicValidIffSignature and TailValidIffAllZero: both branches. -/
theorem witness_validators :
    ((shown (e2e 0 []) 16 0x01#8).byteAt 0#4 = 0x4E#8 ∧ (shown (e2e 0 []) 16 0x01#8).byteAt 1#4 = 0x45#8 ∧
      (shown (e2e 0 []) 16 0x01#8).byteAt 2#4 = 0x53#8 ∧ (shown (e2e 0 []) 16 0x01#8).byteAt 3#4 = 0x1A#8) ∧
    (shown ramp 16 0x01#8).byteAt 0#4 ≠ 0x4E#8 ∧
    (shown (e2e 0 []) 16 0x09#8).byteAt 11#4 = 0#8 ∧ (shown (e2e 0 []) 16 0x09#8).byteAt 15#4 = 0#8 ∧
    (shown ramp 16 0x09#8).byteAt 11#4 ≠ 0#8 := by decide
/-- PagesOfSizeCode, the ROM-size rules and UnknownSizeCodeStaysReadable: the codes where the clauses meet. -/
theorem witness_pages : pages 0#8 = 0#7 ∧ pages 1#8 = 1#7 ∧ pages 64#8 = 64#7 ∧ pages 65#8 = 0#7 ∧ pages 255#8 = 0#7 ∧
    16 ≤ (shown (e2e 4 [0, 65]) 16 0x02#8).inLen ∧ (shown (e2e 4 [0, 65]) 16 0x02#8).byteAt 4#4 = 0#8 ∧
    65 ≤ ((shown (e2e 4 [0, 65]) 16 0x02#8).byteAt 5#4).toNat := by decide
/-- DescriptionStrings: both ends of the range of p. -/
theorem witness_descriptionStrings : descString 1 8 = "(1x8kbpages)" ∧ descString 64 8 = "(64x8kbpages)" := by decide
/-- TvStandardsAreIndependent: the third clause, two states that agree on byte 9 and not on byte 10, and two the
other way round. -/
theorem witness_tvStandards : 16 ≤ (shown (e2e 9 [1, 0]) 16 0x05#8).inLen ∧
    (shown (e2e 9 [1, 0]) 16 0x05#8).byteAt 9#4 = 0x01#8 ∧ (shown (e2e 9 [1, 0]) 16 0x05#8).byteAt 10#4 = 0x00#8 ∧
    (shown (e2e 9 [1, 2]) 16 0x05#8).byteAt 9#4 = 0x01#8 ∧ (shown (e2e 9 [1, 2]) 16 0x05#8).byteAt 10#4 = 0x02#8 ∧
    (shown (e2e 9 [0, 2]) 16 0x05#8).byteAt 9#4 = 0x00#8 ∧ (shown (e2e 9 [0, 2]) 16 0x05#8).byteAt 10#4 = 0x02#8 ∧
    (shown (e2e 9 [1, 0]) 16 0x05#8).inLen = (shown (e2e 9 [1, 2]) 16 0x05#8).inLen := by decide
/-- CommandsChangeOnlyTheOutputs, CommandsAreIdempotent, ChangedHeaderIsSeenByNextCommand: a next state. -/
theorem witness_next : (∃ t, exec (.readByte 15#4) (shown ramp 16 0xFA#8) = .next t) ∧
    (∃ t, step (shown ramp 16 0xFA#8) = .next t) ∧ (∃ t, step (shown ramp 15 0x0F#8) = .next t) :=
  ⟨⟨_, rfl⟩, ⟨_, rfl⟩, ⟨_, rfl⟩⟩
/-- EqualInputsEqualResponses: two different states with equal inputs. -/
theorem witness_equalInputs : (shown ramp 16 0x01#8).inputsHeld = true ∧
    (shown ramp 16 0x01#8).cmd = ({ shown ramp 16 0x01#8 with rspStatus := 2#2 } : State).cmd ∧
    (shown ramp 16 0x01#8).inLen = ({ shown ramp 16 0x01#8 with rspStatus := 2#2 } : State).inLen ∧
    (shown ramp 16 0x01#8).inHdr = ({ shown ramp 16 0x01#8 with rspStatus := 2#2 } : State).inHdr ∧
    shown ramp 16 0x01#8 ≠ { shown ramp 16 0x01#8 with rspStatus := 2#2 } := ⟨rfl, rfl, rfl, rfl, by decide⟩
/-- OnlySixteenBytesAreConsulted: lengths 16 and 17, and buffers of 16 and 17 bytes with equal first 16. -/
theorem witness_sixteenBytes : 16 ≤ (shown ramp 16 0x01#8).inLen ∧ 16 ≤ (shown ramp 17 0x01#8).inLen ∧
    (shown ramp 16 0x01#8).inHdr = (shown ramp 17 0x01#8).inHdr ∧ (shown ramp 16 0x01#8).inputsHeld = true ∧
    ShowsBuffer ramp ((State.reset.driveBuffer ramp).present 0x01#8) ∧
    ShowsBuffer (ramp ++ [1#8]) ((State.reset.driveBuffer (ramp ++ [1#8])).present 0x01#8) ∧
    16 ≤ ramp.length ∧ ramp.take 16 = (ramp ++ [1#8]).take 16 :=
  ⟨by decide, by decide, rfl, rfl, showsBuffer_driveBuffer State.reset ramp,
    showsBuffer_driveBuffer State.reset (ramp ++ [1#8]), by decide, by decide⟩
/-- BufferDecodesAsTheSourceDoes: a buffer of every length is shown by some state, so at 0, at 15, at 16 and past the port. -/
theorem witness_showsBuffer (buf : List Byte) : ShowsBuffer buf (State.reset.driveBuffer buf) := showsBuffer_driveBuffer _ _
/-- OperationsReadOnlyTheirBits: TV_STD_B on two headers that differ in every bit it does not read. -/
theorem witness_readOnlyTheirBits :
    (shown (e2e 0 []) 16 0x06#8).inLen = (shown (List.replicate 16 0xFC#8) 16 0x06#8).inLen ∧
    ∀ a : Offset, (shown (e2e 0 []) 16 0x06#8).byteAt a &&& bitsRead .tvStdB a =
      (shown (List.replicate 16 0xFC#8) 16 0x06#8).byteAt a &&& bitsRead .tvStdB a := by decide
/-- RawBytesReachOnlyReadByte, first clause: bytes 6 and 7, the undecoded bits of byte 10 and single bytes of magic and tail
differ, and the rest that the clause names is equal (L2-71). -/
theorem witness_rawBytes :
    let s := shown (e2e 0 [0, 0, 0, 0, 1, 1, 0xA3, 0x5C, 0, 0, 0xCC, 1]) 16 0x01#8
    let t := shown (e2e 0 [1, 1, 1, 1, 1, 1, 0, 0, 0, 0, 0, 0, 2]) 16 0x01#8
    s.inLen = t.inLen ∧ s.headerInfo.magicValid = t.headerInfo.magicValid ∧
      s.headerInfo.tailValid = t.headerInfo.tailValid ∧ s.byteAt 4#4 = t.byteAt 4#4 ∧ s.byteAt 5#4 = t.byteAt 5#4 ∧
      s.byteAt 8#4 = t.byteAt 8#4 ∧ s.byteAt 9#4 = t.byteAt 9#4 ∧ s.byteAt 10#4 &&& 0x33#8 = t.byteAt 10#4 &&& 0x33#8 ∧
      s.byteAt 6#4 ≠ t.byteAt 6#4 := by decide
/-- RawBytesReachOnlyReadByte, second clause: both ends of the header. -/
theorem witness_rawBytes_read : 16 ≤ (shown ramp 16 0x0A#8).inLen ∧ 16 ≤ (shown (e2e 0 []) 16 0x0A#8).inLen ∧
    (shown ramp 16 0x0A#8).byteAt 0#4 ≠ (shown (e2e 0 []) 16 0x0A#8).byteAt 0#4 ∧
    (shown ramp 16 0x0A#8).byteAt 15#4 ≠ (shown (e2e 0 []) 16 0x0A#8).byteAt 15#4 := by decide
/-- StepKeepsInvariant, HostKeepsInvariant: a state that meets the invariant and takes a step, with a driven header. -/
theorem witness_invariant : (shown ramp 16 0xFA#8).Inv ∧ ∃ t, step (shown ramp 16 0xFA#8) = .next t := by
  refine ⟨⟨by decide, ?_, .inl ⟨rfl, by decide⟩⟩, _, rfl⟩
  have := thirtyTwo_le_two_pow_lenW
  show 16 < 2 ^ Config.lenW
  omega

end Sys2Proof.Tests
end

section
/-! PROOFS. Family 10_state.md: the frame of a command, the shapes of its response, and the invariant of the ports. -/

namespace Sys2Proof.Machine

/-! ## The bounds on an operation's result -/

/-- A view of at most 8 bits stays under the bound of the `OK` data (10_state.md R28). -/
theorem zext32_toNat_le_2040 {n : Nat} (hn : n ≤ 8) (v : BitVec n) : (zext32 v).toNat ≤ 2040 := by
  have hval : (zext32 v).toNat = v.toNat := zext32_toNat (by omega) v
  have hpow : 2 ^ n ≤ 2 ^ 8 := Nat.pow_le_pow_right (by decide) hn
  have := v.isLt
  omega

/-- `prg_ram_kb` is at most 8 times the greatest code (44_bitfield_classifier.md R160). -/
theorem prgRamKb_toNat_le_2040 (s : State) : s.headerInfo.prgRamKb.toNat ≤ 2040 := by
  rw [prgRamKb_eq]
  split
  · decide
  · have hval : (zext32 (s.byteAt 8#4)).toNat = (s.byteAt 8#4).toNat := zext32_toNat (by decide) _
    have := (s.byteAt 8#4).isLt
    rw [BitVec.toNat_mul, hval, BitVec.toNat_ofNat]
    omega

/-- PRG_RAM_KB alone answers more than 8 bits, so it sets the bound for all eleven results (R28). -/
theorem execResult_toNat_le_2040 (i : Instr) (s : State) : (execResult i s).toNat ≤ 2040 := by
  cases i with
  | decode => exact Nat.zero_le _
  | prgRamKb => exact prgRamKb_toNat_le_2040 s
  | isMagicValid | prgRamPresent | noBusConflicts | isTailValid => exact zext32_toNat_le_2040 (n := 1) (by decide) _
  | tvStdA | tvStdB => exact zext32_toNat_le_2040 (n := 2) (by decide) _
  | prgRomDesc | chrRomDesc => exact zext32_toNat_le_2040 (n := 7) (by decide) _
  | readByte idx => exact zext32_toNat_le_2040 (n := 8) (by decide) _

/-! ## The shapes of a response -/

theorem responseShape_ok {d : Word} (h : d.toNat ≤ 2040) : ResponseShape Status.ok.code d := .inl ⟨rfl, h⟩

theorem responseShape_truncated {got : Nat} (h : got < 16) :
    ResponseShape Status.truncated.code (CommandError.truncated got).data := by
  rw [truncated_data got h]
  have hval : (BitVec.ofNat 32 (0x1000 + got)).toNat = 0x1000 + got := Nat.mod_eq_of_lt (by omega)
  exact .inr (.inl ⟨rfl, by omega, by omega⟩)

theorem responseShape_badOp : ResponseShape Status.badOp.code CommandError.badOp.data := .inr (.inr ⟨rfl, rfl⟩)

/-! ## A command drives the two outputs and nothing else -/

/-- `t` is `s` with a response of a legal shape on the outputs. -/
def Responds (s t : State) : Prop := ∃ (st : Status) (d : Word), t = s.respond st d ∧ ResponseShape st.code d

theorem exec_responds {i : Instr} {s t : State} (h : exec i s = .next t) : Responds s t := by
  rw [exec_eq] at h
  obtain rfl := Host.Outcome.next.inj h
  split
  case isTrue hshort => exact ⟨.truncated, _, rfl, responseShape_truncated hshort⟩
  case isFalse => exact ⟨.ok, _, rfl, responseShape_ok (execResult_toNat_le_2040 i s)⟩

theorem step_responds {s t : State} (h : step s = .next t) : Responds s t := by
  obtain ⟨-, hstep⟩ | ⟨-, -, hstep⟩ | ⟨-, i, -, hstep⟩ := step_cases s
  · rw [hstep] at h
    nomatch h
  · obtain rfl := Host.Outcome.next.inj (hstep.symm.trans h)
    exact ⟨.badOp, _, rfl, responseShape_badOp⟩
  · exact exec_responds (hstep.symm.trans h)

theorem Responds.frame {s t : State} (h : Responds s t) :
    (∀ a : Offset, t.byteAt a = s.byteAt a) ∧ t.hdr = s.hdr ∧ t.inLen = s.inLen ∧ t.cmd = s.cmd ∧
      t.inputsHeld = s.inputsHeld := by
  obtain ⟨st, d, rfl, -⟩ := h
  simp

theorem Responds.inv {s t : State} (h : Responds s t) (hs : s.Inv) : t.Inv := by
  obtain ⟨st, d, rfl, hshape⟩ := h
  obtain ⟨hwf, hlen, -⟩ := hs
  exact ⟨hwf, hlen, hshape⟩

/-- Settles O44: a step drives a response of a legal shape and leaves the inputs, so the invariant's first two parts stay. -/
theorem stepKeepsInvariant : Obligations.StepKeepsInvariant :=
  fun _ _ hs hstep => (step_responds hstep).inv hs

/-- Settles O33: `exec` and `step` only respond, and a response leaves the header space, the inputs and the mark. -/
theorem commandsChangeOnlyTheOutputs : Obligations.CommandsChangeOnlyTheOutputs :=
  ⟨fun _ _ _ hexec => (exec_responds hexec).frame, fun _ _ hstep => (step_responds hstep).frame⟩

/-! ## What the host drives -/

/-- The port shows the bus the host drives. -/
@[simp] theorem State.driveHdr_inHdr (s : State) (bus : BitVec 128) : (s.driveHdr bus).inHdr = bus :=
  (packBus_inj.2 (s.driveHdr_byteAt bus)).trans (packBus_busByte bus)

/-- Settles O40: lane by lane, the driven header reads as the bus and the port as the header. -/
theorem headerByteIsBusLane : Obligations.HeaderByteIsBusLane :=
  ⟨State.driveHdr_byteAt, State.busByte_inHdr, State.driveHdr_inHdr⟩

/-- Settles O45: lanes make a canonical header space, the length shown fits the port, and the outputs are untouched. -/
theorem hostKeepsInvariant : Obligations.HostKeepsInvariant := by
  rintro s ⟨hwf, hlen, hshape⟩
  refine ⟨fun bus => ?_, fun n => ?_, fun buf => ?_, fun w => ?_⟩
  · exact ⟨Memory.wf_ofLanes _, hlen, hshape⟩
  · exact ⟨hwf, lengthShown_lt n, hshape⟩
  · exact ⟨Memory.wf_ofLanes _, lengthShown_lt buf.length, hshape⟩
  · exact ⟨hwf, hlen, hshape⟩

/-! ## The step on a held command -/

/-- A held command that decodes is answered by its instruction (30_encoding.md R70). -/
theorem step_of_decoded {s : State} {i : Instr} (held : s.inputsHeld = true) (hdec : decodeCommand s.cmd = .ok i) :
    step s = exec i s := by
  simp only [step, fetchCommand_of_held held, hdec]

/-- A held reserved word is answered `BAD_OP` (R64, R65). -/
theorem step_of_reserved {s : State} {r : Reserved} (held : s.inputsHeld = true)
    (hdec : decodeCommand s.cmd = .error r) : step s = .next (s.raise .badOp) := by
  simp only [step, fetchCommand_of_held held, hdec, answerReserved]

/-- Settles O7: the two cases of the decoder on a held command. -/
theorem stepRunsDecodedInstruction : Obligations.StepRunsDecodedInstruction :=
  fun _ held => ⟨fun _ hdec => step_of_decoded held hdec, fun _ hdec => step_of_reserved held hdec⟩

/-- Settles O46: the empty cell list is canonical, 0 fits the port, and the outputs show `OK` with data 0. -/
theorem resetMeetsInvariant : Obligations.ResetMeetsInvariant :=
  ⟨rfl, Nat.two_pow_pos _, responseShape_ok (Nat.zero_le _)⟩

end Sys2Proof.Machine
end

section
/-! PROOFS. Family 20_memory.md: no command leaves a trace in the header space, so the next one sees only the inputs. The step is
held against `Execute` on the bits of the ports (30_encoding.md R70) on the way. -/

namespace Sys2Proof.Machine

/-! ## What stands on the outputs changes no answer (10_state.md R30, R31) -/

@[simp] theorem State.respond_raise (s : State) (st : Status) (d : Word) (e : CommandError) :
    (s.respond st d).raise e = s.raise e := rfl

@[simp] theorem execResult_respond (i : Instr) (s : State) (st : Status) (d : Word) :
    execResult i (s.respond st d) = execResult i s := rfl

@[simp] theorem exec_respond (i : Instr) (s : State) (st : Status) (d : Word) :
    exec i (s.respond st d) = exec i s := (exec_eq i (s.respond st d)).trans (exec_eq i s).symm

@[simp] theorem fetchCommand_respond (s : State) (st : Status) (d : Word) :
    fetchCommand (s.respond st d) = fetchCommand s := rfl

@[simp] theorem step_respond (s : State) (st : Status) (d : Word) : step (s.respond st d) = step s := by
  simp only [step, fetchCommand_respond, exec_respond, answerReserved, State.respond_raise]

/-- Settles O35: a step only drives the outputs, and the next answer does not depend on them. -/
theorem commandsAreIdempotent : Obligations.CommandsAreIdempotent := by
  intro s t hstep
  obtain ⟨st, d, rfl, -⟩ := step_responds hstep
  rw [step_respond]
  exact hstep

/-! ## The fields of a decoded and of a reserved word (30_encoding.md R60 to R65) -/

theorem cmdOp_toNat (w : CommandWord) : (cmdOp w).toNat = w.toNat % 16 := by
  simp [cmdOp, BitVec.extractLsb'_toNat]

theorem cmdIdx_toNat (w : CommandWord) : (cmdIdx w).toNat = w.toNat / 16 := by
  have := w.isLt
  simp only [cmdIdx, BitVec.extractLsb'_toNat, Nat.shiftRight_eq_div_pow]
  omega

theorem decodeNoOperand_eq_ok {w : CommandWord} {i j : Instr} :
    decodeNoOperand w i = .ok j ↔ cmdIdx w = 0#4 ∧ i = j := by
  unfold decodeNoOperand
  split <;> simp [*]

theorem decodeNoOperand_eq_error {w : CommandWord} {i : Instr} {r : Reserved} :
    decodeNoOperand w i = .error r ↔ cmdIdx w ≠ 0#4 ∧ .idx (cmdOp w) (cmdIdx w) = r := by
  unfold decodeNoOperand
  split <;> simp [*]

/-- A word that decodes carries the fields of its instruction. -/
theorem fields_of_decoded {w : CommandWord} {i : Instr} (hdec : decodeCommand w = .ok i) :
    cmdOp w = i.opField ∧ cmdIdx w = i.idxField := by
  unfold decodeCommand at hdec
  split at hdec
  case h_11 hop =>
    obtain rfl := Except.ok.inj hdec
    exact ⟨BitVec.eq_of_toNat_eq hop, rfl⟩
  case h_12 => nomatch hdec
  all_goals
    next hop =>
      obtain ⟨hidx, rfl⟩ := decodeNoOperand_eq_ok.1 hdec
      exact ⟨BitVec.eq_of_toNat_eq hop, hidx⟩

/-- A word that does not decode has a reserved op (R64), or an idx that its op does not take (R65). -/
theorem fields_of_reserved {w : CommandWord} {r : Reserved} (hdec : decodeCommand w = .error r) :
    0xB ≤ (cmdOp w).toNat ∨ ((cmdOp w).toNat ≠ 0xA ∧ cmdIdx w ≠ 0#4) := by
  unfold decodeCommand at hdec
  split at hdec
  case h_11 => nomatch hdec
  case h_12 => left; grind
  all_goals
    next hop =>
      exact .inr ⟨by omega, (decodeNoOperand_eq_error.1 hdec).1⟩

/-! ## `Execute` on the bits of the ports (R33, R70) -/

/-- `Execute`'s checks, on the fields of the word. -/
theorem respond_eq (w : CommandWord) (hdr : BitVec 128) (len : Nat) :
    respond w hdr len =
      if 0xB ≤ (cmdOp w).toNat then (2#2, 0#32)
      else if (cmdOp w).toNat ≠ 0xA ∧ (cmdIdx w).toNat ≠ 0 then (2#2, 0#32)
      else if len < 16 then (1#2, BitVec.ofNat 32 (0x1000 + len))
      else (0#2, BitVec.ofNat 32 (resultOf (cmdOp w).toNat (cmdIdx w).toNat hdr)) := by
  rw [cmdOp_toNat, cmdIdx_toNat]
  rfl

theorem respond_of_reserved {w : CommandWord} {r : Reserved} (hdec : decodeCommand w = .error r)
    (hdr : BitVec 128) (len : Nat) : respond w hdr len = (2#2, 0#32) := by
  rw [respond_eq]
  obtain hop | ⟨hop, hidx⟩ := fields_of_reserved hdec
  · rw [if_pos hop]
  · have hidx' : (cmdIdx w).toNat ≠ 0 := fun h => hidx (BitVec.eq_of_toNat_eq h)
    rw [if_pos (And.intro hop hidx'), ite_self]

theorem respond_of_decoded {w : CommandWord} {i : Instr} (hdec : decodeCommand w = .ok i)
    (hdr : BitVec 128) (len : Nat) :
    respond w hdr len =
      if len < 16 then (1#2, BitVec.ofNat 32 (0x1000 + len))
      else (0#2, BitVec.ofNat 32 (resultOf i.opField.toNat i.idxField.toNat hdr)) := by
  obtain ⟨hop, hidx⟩ := fields_of_decoded hdec
  rw [respond_eq, hop, hidx]
  cases i <;> rfl

/-! The views' values, as numbers, on the header bytes. -/

theorem magicValid_toNat (s : State) : (boolCode s.headerInfo.magicValid).toNat =
    if (s.byteAt 0#4).toNat = 0x4E ∧ (s.byteAt 1#4).toNat = 0x45 ∧ (s.byteAt 2#4).toNat = 0x53 ∧
      (s.byteAt 3#4).toNat = 0x1A then 1 else 0 := by
  simp [boolCode_toNat, magicValid_eq, BitVec.toNat_eq]

theorem tailValid_toNat (s : State) : (boolCode s.headerInfo.tailValid).toNat =
    if (s.byteAt 11#4).toNat = 0 ∧ (s.byteAt 12#4).toNat = 0 ∧ (s.byteAt 13#4).toNat = 0 ∧
      (s.byteAt 14#4).toNat = 0 ∧ (s.byteAt 15#4).toNat = 0 then 1 else 0 := by
  simp [boolCode_toNat, tailValid_eq, BitVec.toNat_eq]

theorem prgRamKb_toNat (s : State) : s.headerInfo.prgRamKb.toNat =
    if (s.byteAt 8#4).toNat = 0 then 8 else (s.byteAt 8#4).toNat * 8 := by
  have hval : (zext32 (s.byteAt 8#4)).toNat = (s.byteAt 8#4).toNat := zext32_toNat (by decide) _
  have := (s.byteAt 8#4).isLt
  simp only [prgRamKb_eq, BitVec.toNat_eq, BitVec.toNat_ofNat, Nat.zero_mod]
  split_ifs
  · rfl
  · rw [BitVec.toNat_mul, hval, BitVec.toNat_ofNat]
    omega

theorem tvA_code_toNat (s : State) : s.headerInfo.tvA.code.toNat =
    if (s.byteAt 9#4).toNat = 0 then 0 else if (s.byteAt 9#4).toNat = 1 then 1 else 2 := by
  simp only [tvA_eq, BitVec.toNat_eq, BitVec.toNat_ofNat, Nat.reducePow, Nat.reduceMod]
  split_ifs <;> rfl

theorem tvB_code_toNat (s : State) : s.headerInfo.tvB.code.toNat =
    if (s.byteAt 10#4).toNat % 4 = 0 then 0 else if (s.byteAt 10#4).toNat % 4 = 1 then 1 else 2 := by
  simp only [tvB_eq, BitVec.toNat_eq, BitVec.extractLsb'_toNat, Nat.shiftRight_zero, BitVec.toNat_ofNat,
    Nat.reducePow, Nat.reduceMod]
  split_ifs <;> rfl

theorem prgRamPresent_toNat (s : State) : (boolCode s.headerInfo.prgRamPresent).toNat =
    if (s.byteAt 10#4).toNat / 16 % 2 = 0 then 1 else 0 := by
  simp [boolCode_toNat, prgRamPresent_eq, BitVec.getLsbD, Nat.testBit_eq_decide_div_mod_eq]

theorem noBusConflicts_toNat (s : State) : (boolCode s.headerInfo.noBusConflicts).toNat =
    if (s.byteAt 10#4).toNat / 32 % 2 = 1 then 1 else 0 := by
  simp [boolCode_toNat, noBusConflicts_eq, BitVec.getLsbD, Nat.testBit_eq_decide_div_mod_eq]

/-- The machine's result, computed on the header's fields, is the result of `Execute`, computed on the bits of `IN_HDR`: each
view's value, read on the lanes of the port, is its operation's line of `resultOf`. -/
theorem execResult_toNat (i : Instr) (s : State) :
    (execResult i s).toNat = resultOf i.opField.toNat i.idxField.toNat s.inHdr := by
  have lane (a : Offset) : s.byteAt a = busByte s.inHdr a := (s.busByte_inHdr a).symm
  cases i with
  | decode => rfl
  | isMagicValid | prgRomDesc | chrRomDesc | prgRamKb | tvStdA | tvStdB | prgRamPresent | noBusConflicts | isTailValid
  | readByte =>
    simp only [execResult, Nat.reduceLeDiff, zext32_toNat, magicValid_toNat, prgPages_eq, chrPages_eq, pages_toNat,
      prgRamKb_toNat, tvA_code_toNat, tvB_code_toNat, prgRamPresent_toNat, noBusConflicts_toNat, tailValid_toNat, lane]
    rfl

/-- A held command is answered as `Execute` answers it, and nothing but the outputs changes (R70). -/
theorem step_eq_respond {s : State} (held : s.inputsHeld = true) :
    step s = .next { s with
      rspStatus := (respond s.cmd s.inHdr s.inLen).1
      rspData := (respond s.cmd s.inHdr s.inLen).2 } := by
  cases hdec : decodeCommand s.cmd with
  | error r =>
    rw [step_of_reserved held hdec, respond_of_reserved hdec]
    rfl
  | ok i =>
    rw [step_of_decoded held hdec, exec_eq, respond_of_decoded hdec, ← execResult_toNat, BitVec.ofNat_toNat]
    split
    case isTrue hshort =>
      rw [State.raise, truncated_data _ hshort]
      rfl
    case isFalse => rfl

/-! ## A changed header is seen by the next command (20_memory.md R48) -/

/-- Only a held command is answered (70_reset_and_hazards.md R235 duty 3). -/
theorem inputsHeld_of_step {s t : State} (hstep : step s = .next t) : s.inputsHeld = true := by
  obtain ⟨-, hrefused⟩ | ⟨held, -⟩ | ⟨held, -⟩ := step_cases s
  · nomatch hstep.symm.trans hrefused
  · exact held
  · exact held

/-- Settles O41: the step before left the command, the length and the mark, so the next one is `Execute` on the new bus. -/
theorem changedHeaderIsSeenByNextCommand : Obligations.ChangedHeaderIsSeenByNextCommand := by
  intro s t bus hstep
  obtain ⟨-, -, hlen, hcmd, hheld⟩ := (step_responds hstep).frame
  have held : (t.driveHdr bus).inputsHeld = true := hheld.trans (inputsHeld_of_step hstep)
  have hbus : (t.driveHdr bus).inHdr = bus := t.driveHdr_inHdr bus
  refine ⟨_, step_eq_respond held, hbus, hcmd, hlen, ?_, ?_⟩
  all_goals simp only [hbus, State.driveHdr_cmd, State.driveHdr_inLen, hcmd, hlen]

end Sys2Proof.Machine
end

section
/-! PROOFS. Family 30_encoding.md: the decoder and the encoder are inverse to each other, the legal words are exactly the
decoder's, and each operation's result has the width and reads the bits that its row lists. -/

namespace Sys2Proof.Machine

/-! ## The two fields of a word (30_encoding.md R60) -/

@[simp] theorem cmdOp_encode (i : Instr) : cmdOp (encode i) = i.opField := BitVec.extractLsb'_append_eq_right

@[simp] theorem cmdIdx_encode (i : Instr) : cmdIdx (encode i) = i.idxField := BitVec.extractLsb'_append_eq_left

/-- A word is its two fields. -/
theorem cmdIdx_append_cmdOp (w : CommandWord) : cmdIdx w ++ cmdOp w = w :=
  (BitVec.extractLsb'_append_extractLsb'_eq_extractLsb' rfl).trans BitVec.extractLsb'_eq_self

/-! ## Decode and encode -/

theorem decodeCommand_encode (i : Instr) : decodeCommand (encode i) = .ok i := by
  unfold decodeCommand
  rw [cmdOp_encode]
  cases i with
  | readByte idx => exact congrArg (Except.ok ∘ Instr.readByte) (cmdIdx_encode (.readByte idx))
  | _ => exact decodeNoOperand_eq_ok.2 ⟨cmdIdx_encode _, rfl⟩

theorem encode_of_decoded {w : CommandWord} {i : Instr} (hdec : decodeCommand w = .ok i) : encode i = w := by
  obtain ⟨hop, hidx⟩ := fields_of_decoded hdec
  rw [encode, ← hop, ← hidx, cmdIdx_append_cmdOp]

/-- Settles O2: the decoder reads back the fields that the encoder writes, and a word has no other field. -/
theorem decodeEncodeAgree : Obligations.DecodeEncodeAgree :=
  ⟨decodeCommand_encode, fun _ _ hdec => encode_of_decoded hdec⟩

/-- Settles O9: a held word is reserved on both sides, or both sides check the length and give the operation's result. -/
theorem stepIsExecute : Obligations.StepIsExecute := fun _ held => step_eq_respond held

/-- Settles O1: each legal word is the one its instruction encodes to, and the two reserved words fail the op check and the
idx check. -/
theorem wordsDecodeAsWritten : Obligations.WordsDecodeAsWritten :=
  ⟨decodeCommand_encode .decode, decodeCommand_encode .isMagicValid, decodeCommand_encode .prgRomDesc,
    decodeCommand_encode .chrRomDesc, decodeCommand_encode .prgRamKb, decodeCommand_encode .prgRamPresent,
    decodeCommand_encode .isTailValid, decodeCommand_encode (.readByte 4#4), decodeCommand_encode (.readByte 15#4),
    rfl, rfl⟩

/-! ## The legal words (R62, R64 to R66) -/

theorem legalWord_iff (w : CommandWord) :
    legalWord w = true ↔ w.toNat % 16 ≤ 0xA ∧ (w.toNat % 16 = 0xA ∨ w.toNat / 16 = 0) := by
  rw [← cmdOp_toNat, ← cmdIdx_toNat]
  simp [legalWord, opAssigned, idxAllowed, cmdOp, cmdIdx, BitVec.toNat_eq]

/-- The reserved words are of two kinds: a reserved op (R64), or an idx that the op does not take (R65). -/
theorem legalWord_eq_false_iff (w : CommandWord) :
    legalWord w = false ↔ 0xB ≤ w.toNat % 16 ∨ (w.toNat % 16 ≤ 0x9 ∧ w.toNat / 16 ≠ 0) := by
  rw [Bool.eq_false_iff, ne_eq, legalWord_iff]
  omega

theorem legalWord_encode (i : Instr) : legalWord (encode i) = true := by
  cases i with
  | readByte idx => exact (Laws.LegalEncoding.readByte idx).2
  | _ => rfl

/-- The decoder accepts exactly the legal words. -/
theorem decodes_iff_legalWord (w : CommandWord) : (∃ i, decodeCommand w = .ok i) ↔ legalWord w = true := by
  constructor
  · rintro ⟨i, hdec⟩
    rw [← encode_of_decoded hdec]
    exact legalWord_encode i
  · intro hlegal
    cases hdec : decodeCommand w with
    | ok i => exact ⟨i, rfl⟩
    | error r =>
      have hfields := fields_of_reserved hdec
      rw [legalWord_iff] at hlegal
      simp only [ne_eq, BitVec.toNat_eq, cmdOp_toNat, cmdIdx_toNat, BitVec.toNat_ofNat] at hfields
      omega

/-- Every other word is rejected, and answered `BAD_OP` with data 0 and no other effect where the host holds it. -/
theorem badOp_of_not_legal {s : State} (hill : legalWord s.cmd = false) :
    (∃ r, decodeCommand s.cmd = .error r) ∧
    (s.inputsHeld = true → step s = .next { s with rspStatus := 2#2, rspData := 0#32 }) := by
  cases hdec : decodeCommand s.cmd with
  | ok i => exact absurd ((decodes_iff_legalWord s.cmd).1 ⟨i, hdec⟩) (Bool.eq_false_iff.1 hill)
  | error r => exact ⟨⟨r, rfl⟩, fun held => step_of_reserved held hdec⟩

/-- Settles O3: the count is over the 256 words; the rest holds word by word. -/
theorem legalWordsAreTwentySix : Obligations.LegalWordsAreTwentySix :=
  ⟨rfl, decodes_iff_legalWord, fun _ held hill => (badOp_of_not_legal hill).2 held⟩

/-- Settles O4: a reserved op fails the first check of a legal word. -/
theorem reservedOpAnswersBadOp : Obligations.ReservedOpAnswersBadOp :=
  ⟨rfl, fun _ hop => badOp_of_not_legal ((legalWord_eq_false_iff _).2 (.inl hop))⟩

/-- Settles O5: a non-zero idx fails the second check, on every op but READ_BYTE's. -/
theorem reservedIdxAnswersBadOp : Obligations.ReservedIdxAnswersBadOp :=
  ⟨rfl, fun _ hop hidx => badOp_of_not_legal ((legalWord_eq_false_iff _).2 (.inr ⟨hop, hidx⟩))⟩

/-! ## The pseudo-instructions (R81) -/

/-- READ_BYTE's word, as the table of R81 counts it. -/
theorem encode_readByte_ofNat_toNat {n : Nat} (hn : n ≤ 15) :
    (encode (.readByte (BitVec.ofNat 4 n))).toNat = 0x0A + 0x10 * n := by
  interval_cases n <;> rfl

/-- Settles O6: the operand's range is the pseudo-instruction's own check, and the offset stays below 16 inside it. -/
theorem pseudoInstructionsExpand : Obligations.PseudoInstructionsExpand := by
  refine ⟨fun k hk => ⟨if_pos hk, ?_⟩, ⟨rfl, rfl⟩, ⟨rfl, rfl⟩, fun k hk => ⟨if_pos hk, ?_⟩, fun k hk => ⟨if_pos hk, ?_⟩,
    fun k hk => if_neg (Nat.not_le.2 hk), fun k hk => ⟨if_neg (Nat.not_le.2 hk), if_neg (Nat.not_le.2 hk)⟩⟩
  all_goals exact (encode_readByte_ofNat_toNat (by omega)).trans (by omega)

/-! ## The width of a result (R28, R71) -/

theorem getLsbD_zext32_of_le {n k : Nat} (v : BitVec n) (hk : n ≤ k) : (zext32 v).getLsbD k = false := by
  rw [zext32, BitVec.getLsbD_setWidth, BitVec.getLsbD_of_ge v k hk, Bool.and_false]

theorem getLsbD_execResult_of_width_le (i : Instr) (s : State) {k : Nat} (hk : resultWidth i ≤ k) :
    (execResult i s).getLsbD k = false := by
  cases i with
  | decode => exact BitVec.getLsbD_zero
  | prgRamKb => exact BitVec.getLsbD_of_ge _ k hk
  | isMagicValid | prgRomDesc | chrRomDesc | tvStdA | tvStdB | prgRamPresent | noBusConflicts | isTailValid
  | readByte => exact getLsbD_zext32_of_le _ hk

/-- Settles O32: with 16 bytes the answer is `OK` with the result, which its width bounds. -/
theorem resultsAreZeroExtended : Obligations.ResultsAreZeroExtended := by
  intro i s hlen
  refine ⟨s.respond .ok (execResult i s), ?_, rfl, fun k hk => getLsbD_execResult_of_width_le i s hk⟩
  rw [exec_eq, if_neg (Nat.not_lt.2 hlen)]

/-! ## The bits an operation reads (R28, R63) -/

/-- Equal lengths and equal results give equal responses: the answer has no other input. -/
theorem sameResponse_exec {i : Instr} {s t : State} (hlen : s.inLen = t.inLen)
    (hres : execResult i s = execResult i t) : SameResponse (exec i s) (exec i t) := by
  refine ⟨_, _, exec_eq i s, exec_eq i t, ?_⟩
  rw [hlen, hres]
  split <;> exact ⟨rfl, rfl⟩

/-- The field that TV_STD_B classifies is the two bits of its mask. -/
theorem extractLsb'_two_eq {x y : Byte} (h0 : x.getLsbD 0 = y.getLsbD 0) (h1 : x.getLsbD 1 = y.getLsbD 1) :
    x.extractLsb' 0 2 = y.extractLsb' 0 2 := by
  apply BitVec.eq_of_getLsbD_eq
  intro k hk
  interval_cases k <;> simpa

section
variable {i : Instr} {s t : State} (hagree : ∀ a : Offset, s.byteAt a &&& bitsRead i a = t.byteAt a &&& bitsRead i a)
include hagree

/-- States that agree on the bits of a mask agree on each bit that is set in it. -/
theorem getLsbD_eq_of_agree (a : Offset) {k : Nat} (hk : (bitsRead i a).getLsbD k = true) :
    (s.byteAt a).getLsbD k = (t.byteAt a).getLsbD k := by
  simpa [hk] using congrArg (·.getLsbD k) (hagree a)

theorem byteAt_eq_of_agree (a : Offset) (hmask : bitsRead i a = 0xFF#8) : s.byteAt a = t.byteAt a := by
  have h := hagree a
  rwa [hmask, show 0xFF#8 = BitVec.allOnes 8 from rfl, BitVec.and_allOnes, BitVec.and_allOnes] at h

/-- Each view is computed from the bits that its operation is listed to read. -/
theorem execResult_eq_of_agree : execResult i s = execResult i t := by
  have byte (a : Offset) := byteAt_eq_of_agree hagree a
  have bit (a : Offset) {k : Nat} := getLsbD_eq_of_agree hagree a (k := k)
  cases i with
  | decode => rfl
  | isMagicValid => simp only [execResult, magicValid_eq, byte 0#4 rfl, byte 1#4 rfl, byte 2#4 rfl, byte 3#4 rfl]
  | prgRomDesc => simp only [execResult, prgPages_eq, byte 4#4 rfl]
  | chrRomDesc => simp only [execResult, chrPages_eq, byte 5#4 rfl]
  | prgRamKb => simp only [execResult, prgRamKb_eq, byte 8#4 rfl]
  | tvStdA => simp only [execResult, tvA_eq, byte 9#4 rfl]
  | tvStdB => simp only [execResult, tvB_eq, extractLsb'_two_eq (bit 10#4 rfl) (bit 10#4 rfl)]
  | prgRamPresent => simp only [execResult, prgRamPresent_eq, bit 10#4 (k := 4) rfl]
  | noBusConflicts => simp only [execResult, noBusConflicts_eq, bit 10#4 (k := 5) rfl]
  | isTailValid =>
    simp only [execResult, tailValid_eq, byte 11#4 rfl, byte 12#4 rfl, byte 13#4 rfl, byte 14#4 rfl, byte 15#4 rfl]
  | readByte idx => simp only [execResult, byte idx (if_pos rfl)]

end

/-- Settles O37: the response is the length check and the result, and the result is computed from the listed bits. -/
theorem operationsReadOnlyTheirBits : Obligations.OperationsReadOnlyTheirBits :=
  fun _ _ _ hlen hagree => sameResponse_exec hlen (execResult_eq_of_agree hagree)

end Sys2Proof.Machine
end

section
/-! PROOFS. Family 41_decode_fields.md: DECODE and READ_BYTE, the fields of the `HeaderInfo`, and which inputs a response can tell
apart. -/

namespace Sys2Proof.Machine

/-! ## The rule of an operation (30_encoding.md R65, R70, R71; 60_exceptions.md R200) -/

/-- With 16 bytes an instruction completes `OK` with its result (R70, R71). -/
theorem exec_of_sixteen_le (i : Instr) {s : State} (hlen : 16 ≤ s.inLen) :
    exec i s = .next { s with rspStatus := 0#2, rspData := execResult i s } := by
  rw [exec_eq, if_neg (Nat.not_lt.2 hlen)]
  rfl

/-- With fewer it is `TRUNCATED`, with `needed = 16` and `got = IN_LEN` (R200). -/
theorem exec_of_lt_sixteen (i : Instr) {s : State} (hshort : s.inLen < 16) :
    exec i s = .next { s with rspStatus := 1#2, rspData := BitVec.ofNat 32 (0x1000 + s.inLen) } := by
  rw [exec_eq, if_pos hshort, State.raise, truncated_data _ hshort]
  rfl

/-- Only READ_BYTE has an operand (R62). -/
theorem Instr.idxField_eq_zero {i : Instr} (hop : i.opField ≠ 0xA#4) : i.idxField = 0#4 := by
  cases i with
  | readByte idx => exact absurd rfl hop
  | _ => rfl

/-- An op other than READ_BYTE's takes no other idx than 0 (R65). -/
theorem decodeCommand_append_reserved {op idx : BitVec 4} (hop : op ≠ 0xA#4) (hidx : idx ≠ 0#4) :
    ∃ r, decodeCommand (idx ++ op) = .error r := by
  cases hdec : decodeCommand (idx ++ op) with
  | error r => exact ⟨r, rfl⟩
  | ok i =>
    obtain ⟨hopField, hidxField⟩ := fields_of_decoded hdec
    rw [cmdOp, BitVec.extractLsb'_append_eq_right] at hopField
    rw [cmdIdx, BitVec.extractLsb'_append_eq_left] at hidxField
    have hzero : i.idxField = 0#4 := Instr.idxField_eq_zero (hopField ▸ hop)
    exact absurd (hidxField.trans hzero) hidx

/-- The rule of an operation without an operand, once its result is known on every state. -/
theorem operationRule_of_execResult {i : Instr} {result : State → Word} (hop : i.opField ≠ 0xA#4)
    (hres : ∀ s, execResult i s = result s) : OperationRule i i.opField result := by
  have hword : encode i = 0#4 ++ i.opField := by rw [encode, Instr.idxField_eq_zero hop]
  refine ⟨hword, hword ▸ decodeCommand_encode i, fun s hlen => ?_, fun s => exec_of_lt_sixteen i,
    fun s idx held hidx hcmd => ?_⟩
  · rw [exec_of_sixteen_le i hlen, hres]
  · obtain ⟨r, hdec⟩ := decodeCommand_append_reserved hop hidx
    exact step_of_reserved held (hcmd ▸ hdec)

/-! ## DECODE, READ_BYTE and the fields (41_decode_fields.md R100, R101, R104) -/

/-- Settles O16: DECODE's result is 0 on every header, and the rest is the rule of an operation without an operand. -/
theorem decodeReportsTheOutcome : Obligations.DecodeReportsTheOutcome :=
  operationRule_of_execResult (by decide) fun _ => rfl

/-- Every pseudo-instruction that assembles is a READ_BYTE (30_encoding.md R81). -/
theorem Pseudo.eq_readByte_of_expand {p : Pseudo} {i : Instr} (h : p.expand = some i) : ∃ idx, i = .readByte idx := by
  cases p with
  | readPrgUnits | readChrUnits => exact ⟨_, (Option.some.inj h).symm⟩
  | readMagic k | readFlags k | readTail k =>
    obtain ⟨-, hi⟩ := Option.ite_none_right_eq_some.1 h
    exact ⟨_, (Option.some.inj hi).symm⟩

/-- Settles O17: the word is READ_BYTE's own encoding, and its result is the byte at the operand. -/
theorem readByteReturnsTheRawByte : Obligations.ReadByteReturnsTheRawByte := fun idx =>
  ⟨rfl, decodeCommand_encode (.readByte idx), fun _ => exec_of_sixteen_le (.readByte idx),
    fun _ => exec_of_lt_sixteen (.readByte idx), fun _ _ => Pseudo.eq_readByte_of_expand⟩

/-- Settles O39: each field is read at its own offset, and the offsets in order are 0 to 15. -/
theorem headerInfoIsTheSixteenBytes : Obligations.HeaderInfoIsTheSixteenBytes := fun s =>
  ⟨s.headerInfo_magic, s.headerInfo_prgRomUnits, s.headerInfo_chrRomUnits, s.headerInfo_flags, s.headerInfo_tail, rfl⟩

/-! ## Equal inputs, equal responses (R103, R107) -/

/-- Held commands that `Execute` answers alike are answered alike. -/
theorem sameResponse_step {s t : State} (hs : s.inputsHeld = true) (ht : t.inputsHeld = true)
    (h : respond s.cmd s.inHdr s.inLen = respond t.cmd t.inHdr t.inLen) : SameResponse (step s) (step t) :=
  ⟨_, _, step_eq_respond hs, step_eq_respond ht, congrArg Prod.fst h, congrArg Prod.snd h⟩

/-- Settles O34: the response is a function of `CMD`, `IN_HDR` and `IN_LEN`. -/
theorem equalInputsEqualResponses : Obligations.EqualInputsEqualResponses := by
  intro s t hs ht hcmd hhdr hlen
  exact sameResponse_step hs ht (by rw [hcmd, hhdr, hlen])

/-- `Execute` looks at the length only to compare it with 16. -/
theorem respond_eq_of_sixteen_le (w : CommandWord) (hdr : BitVec 128) {len len' : Nat} (hlen : 16 ≤ len)
    (hlen' : 16 ≤ len') : respond w hdr len = respond w hdr len' := by
  simp only [respond_eq, if_neg (Nat.not_lt.2 hlen), if_neg (Nat.not_lt.2 hlen')]

theorem sameResponse_step_of_sixteen_le {s t : State} (hs : s.inputsHeld = true) (ht : t.inputsHeld = true)
    (hcmd : s.cmd = t.cmd) (hhdr : s.inHdr = t.inHdr) (hlen : 16 ≤ s.inLen) (hlen' : 16 ≤ t.inLen) :
    SameResponse (step s) (step t) := by
  apply sameResponse_step hs ht
  rw [hcmd, hhdr]
  exact respond_eq_of_sixteen_le _ _ hlen hlen'

theorem ShowsBuffer.sixteen_le {buf : List Byte} {s : State} (h : ShowsBuffer buf s) (hlen : 16 ≤ buf.length) :
    16 ≤ s.inLen := Nat.not_lt.1 (mt h.lt_sixteen_iff.1 (Nat.not_lt.2 hlen))

/-- Duty 2 (70_reset_and_hazards.md R235) on a full buffer: its first 16 bytes are the whole bus. -/
theorem ShowsBuffer.inHdr_eq {buf buf' : List Byte} {s t : State} (h : ShowsBuffer buf s) (h' : ShowsBuffer buf' t)
    (hlen : 16 ≤ buf.length) (htake : buf.take 16 = buf'.take 16) : s.inHdr = t.inHdr := by
  obtain ⟨hlanes, -, -⟩ := h
  obtain ⟨hlanes', -, -⟩ := h'
  refine (State.inHdr_eq_iff s t).2 fun i => ?_
  have hi : i.toNat < 16 := i.isLt
  have hget : buf[i.toNat]? = some buf[i.toNat] := List.getElem?_eq_getElem (by omega)
  have hget' : buf'[i.toNat]? = some buf[i.toNat] := by
    rw [← List.getElem?_take_of_lt hi, ← htake, List.getElem?_take_of_lt hi, hget]
  exact (hlanes i _ hget).trans (hlanes' i _ hget').symm

/-- Settles O36: the length is compared with 16 and nothing more, and the bus holds nothing beyond the first 16 bytes. -/
theorem onlySixteenBytesAreConsulted : Obligations.OnlySixteenBytesAreConsulted := by
  refine ⟨fun s t hs ht => sameResponse_step_of_sixteen_le hs ht, ?_⟩
  intro buf buf' s t hs ht hcmd hshow hshow' hlen hlen' htake
  exact sameResponse_step_of_sixteen_le hs ht hcmd (hshow.inHdr_eq hshow' hlen htake) (hshow.sixteen_le hlen)
    (hshow'.sixteen_le hlen')

/-! ## Raw bytes (R105) -/

/-- Zero extension loses nothing. -/
theorem zext32_inj {n : Nat} (hn : n ≤ 32) {v w : BitVec n} (h : zext32 v = zext32 w) : v = w := by
  apply BitVec.eq_of_toNat_eq
  rw [← zext32_toNat hn v, h, zext32_toNat hn w]

/-- Bytes that agree under a mask agree on each bit that is set in it. -/
theorem getLsbD_eq_of_and_eq {x y mask : Byte} (h : x &&& mask = y &&& mask) {k : Nat} (hk : mask.getLsbD k = true) :
    x.getLsbD k = y.getLsbD k := by
  simpa [hk] using congrArg (·.getLsbD k) h

/-- READ_BYTE's data tells every two values of its byte apart. -/
theorem not_sameResponse_readByte {s t : State} {idx : Offset} (hs : 16 ≤ s.inLen) (ht : 16 ≤ t.inLen)
    (hne : s.byteAt idx ≠ t.byteAt idx) : ¬ SameResponse (exec (.readByte idx) s) (exec (.readByte idx) t) := by
  rintro ⟨s', t', hs', ht', -, hdata⟩
  obtain rfl := Host.Outcome.next.inj ((exec_of_sixteen_le _ hs).symm.trans hs')
  obtain rfl := Host.Outcome.next.inj ((exec_of_sixteen_le _ ht).symm.trans ht')
  exact hne (zext32_inj (by decide) hdata)

/-- Settles O38: every other result is a validity bit, or a view of a byte or of bits that the hypotheses hold equal. -/
theorem rawBytesReachOnlyReadByte : Obligations.RawBytesReachOnlyReadByte := by
  refine ⟨?_, fun _ _ _ => not_sameResponse_readByte⟩
  intro s t hlen hmagic htail h4 h5 h8 h9 h10 i hi
  have bit {k : Nat} (hk : (0x33#8).getLsbD k = true) := getLsbD_eq_of_and_eq h10 hk
  apply sameResponse_exec hlen
  cases i with
  | decode => rfl
  | isMagicValid => simp only [execResult, hmagic]
  | isTailValid => simp only [execResult, htail]
  | prgRomDesc => simp only [execResult, prgPages_eq, h4]
  | chrRomDesc => simp only [execResult, chrPages_eq, h5]
  | prgRamKb => simp only [execResult, prgRamKb_eq, h8]
  | tvStdA => simp only [execResult, tvA_eq, h9]
  | tvStdB => simp only [execResult, tvB_eq, extractLsb'_two_eq (bit rfl) (bit rfl)]
  | prgRamPresent => simp only [execResult, prgRamPresent_eq, bit (k := 4) rfl]
  | noBusConflicts => simp only [execResult, noBusConflicts_eq, bit (k := 5) rfl]
  | readByte idx => exact absurd rfl (hi idx)

end Sys2Proof.Machine
end

section
/-! PROOFS. Family 42_magic_validator.md: IS_MAGIC_VALID. -/

namespace Sys2Proof.Machine

/-- A validity bit as a result word (30_encoding.md R71). -/
theorem zext32_boolCode_decide (p : Prop) [Decidable p] : zext32 (boolCode (decide p)) = if p then 1#32 else 0#32 := by
  by_cases hp : p
  · rw [decide_eq_true hp, if_pos hp]; rfl
  · rw [decide_eq_false hp, if_neg hp]; rfl

/-- Settles O18: the result is the validity bit of the signature's four comparisons, and the rest is the rule of an operation
without an operand. -/
theorem magicValidIffSignature : Obligations.MagicValidIffSignature :=
  operationRule_of_execResult (by decide) fun s => by
    rw [execResult, magicValid_eq, zext32_boolCode_decide]

end Sys2Proof.Machine
end

section
/-! PROOFS. Family 43_rom_size_decoder.md: the page count of a size code, PRG_ROM_DESC and CHR_ROM_DESC, and the description
strings. -/

namespace Sys2Proof.Machine

/-! ## The page count of a size code (43_rom_size_decoder.md R140, R141) -/

/-- The codes 1 to 64 are the known ones. -/
theorem pages_toNat_of_known {c : Byte} (hpos : 1 ≤ c.toNat) (hle : c.toNat ≤ 64) : (pages c).toNat = c.toNat := by
  rw [pages_toNat, if_pos ⟨hpos, hle⟩]

theorem pages_ne_zero_of_known {c : Byte} (hpos : 1 ≤ c.toNat) (hle : c.toNat ≤ 64) : pages c ≠ 0#7 := by
  intro hzero
  have hval : (pages c).toNat = 0 := congrArg BitVec.toNat hzero
  rw [pages_toNat_of_known hpos hle] at hval
  omega

/-- Code 0 and the codes above 64 fail the bounds check. -/
theorem pages_of_unknown {c : Byte} (hunknown : c = 0#8 ∨ 65 ≤ c.toNat) : pages c = 0#7 := by
  apply if_neg
  rintro ⟨hpos, hle⟩
  obtain rfl | hbig := hunknown
  · exact absurd hpos (by decide)
  · omega

/-- Settles O19: the bounds check passes for exactly the known codes, and each view applies it to its own byte. -/
theorem pagesOfSizeCode : Obligations.PagesOfSizeCode :=
  ⟨fun _ => pages_toNat_of_known, fun _ => pages_of_unknown, fun _ => pages_ne_zero_of_known,
    fun s => ⟨prgPages_eq s, chrPages_eq s⟩⟩

/-- Settles O20: a non-zero code is an index of the table exactly when it is at most 64, and its entry is then the code. -/
theorem pagesMatchTheLookupTable : Obligations.PagesMatchTheLookupTable := by
  intro c
  rw [pages_toNat, List.getElem?_map]
  by_cases hzero : c.toNat = 0
  · simp [hzero]
  rw [if_neg hzero]
  by_cases hle : c.toNat ≤ 64
  · rw [if_pos ⟨by omega, hle⟩, List.getElem?_range (by omega)]
    exact (Nat.sub_add_cancel (by omega)).symm
  · have hout : (List.range 64)[c.toNat - 1]? = none := List.getElem?_eq_none (by rw [List.length_range]; omega)
    rw [if_neg (fun ⟨_, h⟩ => hle h), hout]
    rfl

/-! ## PRG_ROM_DESC and CHR_ROM_DESC (R142, R143) -/

/-- The page count as a result word (30_encoding.md R71): 7 bits hold every known code, so the narrowing loses nothing. -/
theorem zext32_pages (c : Byte) :
    zext32 (pages c) = if 1 ≤ c.toNat ∧ c.toNat ≤ 64 then c.setWidth 32 else 0#32 := by
  apply BitVec.eq_of_toNat_eq
  rw [zext32_toNat (by decide), pages_toNat]
  split
  · exact (zext32_toNat (by decide) c).symm
  · rfl

/-- Settles O21: the result is the page count of byte 4, and the string is made from the same view. -/
theorem prgRomDescReturnsPages : Obligations.PrgRomDescReturnsPages :=
  ⟨operationRule_of_execResult (by decide) fun s => zext32_pages (s.byteAt 4#4), fun _ => rfl⟩

/-- Settles O22: the result is the page count of byte 5, and the string is made from the same view. -/
theorem chrRomDescReturnsPages : Obligations.ChrRomDescReturnsPages :=
  ⟨operationRule_of_execResult (by decide) fun s => zext32_pages (s.byteAt 5#4), fun _ => rfl⟩

/-! ## The description strings (R144) -/

/-- `dec` writes a number as Lean does (00_scope.md R12). -/
theorem dec_eq_toString (n : Nat) : dec n = toString n := rfl

/-- Zero pages stand for Unknown, whatever the unit. -/
theorem descString_zero (u : Nat) : descString 0 u = "(Unknown)" := rfl

theorem descString_of_ne_zero {p : Nat} (hp : p ≠ 0) (u : Nat) :
    descString p u = "(" ++ toString p ++ "x" ++ toString u ++ "kbpages)" := by
  rw [descString, if_neg hp, dec_eq_toString, dec_eq_toString]

/-- Settles O23: the string is the Unknown form at 0 and the counted form elsewhere; the examples are instances. -/
theorem descriptionStrings : Obligations.DescriptionStrings :=
  ⟨descString_zero, fun _ u hpos _ => descString_of_ne_zero (Nat.one_le_iff_ne_zero.1 hpos) u,
    by decide, by decide, by decide, by decide, by decide⟩

/-! ## An Unknown code stays readable (R145) -/

/-- An operation whose result is the page count of an Unknown code answers `OK` with 0. -/
theorem exec_of_unknown {i : Instr} {s : State} {c : Byte} (hlen : 16 ≤ s.inLen)
    (hres : execResult i s = zext32 (pages c)) (hunknown : c = 0#8 ∨ 65 ≤ c.toNat) :
    exec i s = .next { s with rspStatus := 0#2, rspData := 0#32 } := by
  rw [exec_of_sixteen_le i hlen, hres, pages_of_unknown hunknown]
  rfl

/-- Settles O24: the view answers 0 for an Unknown code, and READ_BYTE answers its byte whatever the code is. -/
theorem unknownSizeCodeStaysReadable : Obligations.UnknownSizeCodeStaysReadable :=
  ⟨rfl, rfl, fun _ hlen =>
    ⟨fun hunknown => ⟨exec_of_unknown hlen rfl hunknown, exec_of_sixteen_le (.readByte 4#4) hlen⟩,
      fun hunknown => ⟨exec_of_unknown hlen rfl hunknown, exec_of_sixteen_le (.readByte 5#4) hlen⟩⟩⟩

end Sys2Proof.Machine
end

section
/-! PROOFS. Family 44_bitfield_classifier.md: PRG_RAM_KB, TV_STD_A, TV_STD_B, PRG_RAM_PRESENT and NO_BUS_CONFLICTS. -/

namespace Sys2Proof.Machine

/-! ## The results of the five operations, as words -/

/-- A result word is its view's value written in 32 bits (30_encoding.md R71). -/
theorem zext32_eq_ofNat_toNat {n : Nat} (v : BitVec n) : zext32 v = BitVec.ofNat 32 v.toNat :=
  (BitVec.ofNat_toNat 32 v).symm

theorem execResult_prgRamKb (s : State) : execResult .prgRamKb s =
    if s.byteAt 8#4 = 0#8 then 8#32 else BitVec.ofNat 32 ((s.byteAt 8#4).toNat * 8) := by
  rw [execResult, prgRamKb_eq, zext32_eq_ofNat_toNat, BitVec.ofNat_mul]

theorem execResult_tvStdA (s : State) : execResult .tvStdA s =
    if s.byteAt 9#4 = 0#8 then 0#32 else if s.byteAt 9#4 = 1#8 then 1#32 else 2#32 := by
  rw [execResult, tvA_eq]
  split_ifs <;> rfl

theorem execResult_tvStdB (s : State) : execResult .tvStdB s =
    if (s.byteAt 10#4).toNat % 4 = 0 then 0#32 else if (s.byteAt 10#4).toNat % 4 = 1 then 1#32 else 2#32 := by
  rw [execResult, zext32_eq_ofNat_toNat, tvB_code_toNat, apply_ite (BitVec.ofNat 32), apply_ite (BitVec.ofNat 32)]

theorem execResult_prgRamPresent (s : State) : execResult .prgRamPresent s =
    if (s.byteAt 10#4).toNat / 16 % 2 = 0 then 1#32 else 0#32 := by
  rw [execResult, zext32_eq_ofNat_toNat, prgRamPresent_toNat, apply_ite (BitVec.ofNat 32)]

theorem execResult_noBusConflicts (s : State) : execResult .noBusConflicts s =
    if (s.byteAt 10#4).toNat / 32 % 2 = 1 then 1#32 else 0#32 := by
  rw [execResult, zext32_eq_ofNat_toNat, noBusConflicts_toNat, apply_ite (BitVec.ofNat 32)]

/-! ## The independence of the two TV standards (R170) -/

/-- Settles O30: each result is computed from its operation's own byte, and on the rule's example they are PAL and NTSC. -/
theorem tvStandardsAreIndependent : Obligations.TvStandardsAreIndependent := by
  refine ⟨fun s t hlen h9 => sameResponse_exec hlen ?_, fun s t hlen h10 => sameResponse_exec hlen ?_,
    fun s hlen h9 h10 => ⟨?_, ?_⟩⟩
  · rw [execResult_tvStdA, execResult_tvStdA, h9]
  · rw [execResult_tvStdB, execResult_tvStdB, h10]
  · rw [exec_of_sixteen_le _ hlen, execResult_tvStdA, h9]
    rfl
  · rw [exec_of_sixteen_le _ hlen, execResult_tvStdB, h10]
    rfl

/-! ## PRG_RAM_KB (R160, R161) -/

/-- The size is a non-zero multiple of 8, since code 0 stands for 8 KB; the greatest code bounds it. -/
theorem prgRamKb_toNat_range (s : State) : 8 ≤ s.headerInfo.prgRamKb.toNat ∧ s.headerInfo.prgRamKb.toNat ≤ 2040 ∧
    s.headerInfo.prgRamKb.toNat % 8 = 0 := by
  refine ⟨?_, prgRamKb_toNat_le_2040 s, ?_⟩
  all_goals
    rw [prgRamKb_toNat]
    split <;> omega

/-- Settles O25: the result is 8 for code 0, else 8 times the code, which 32 bits hold without a wrap. -/
theorem prgRamKbIsEightTimesCode : Obligations.PrgRamKbIsEightTimesCode :=
  ⟨operationRule_of_execResult (by decide) execResult_prgRamKb, fun s =>
    ⟨(prgRamKb_toNat s).trans (if_congr (BitVec.toNat_inj (y := 0#8)) rfl rfl), prgRamKb_toNat_range s⟩⟩

/-! ## The views of bytes 9 and 10 (R162 to R169) -/

/-- Settles O26: the result compares byte 9 whole with the codes 0 and 1. -/
theorem tvStdAClassifiesWholeByte : Obligations.TvStdAClassifiesWholeByte :=
  operationRule_of_execResult (by decide) execResult_tvStdA

/-- Settles O27: the two bits of the field are byte 10 modulo 4, and 2 and 3 have one code. -/
theorem tvStdBClassifiesTwoBits : Obligations.TvStdBClassifiesTwoBits :=
  operationRule_of_execResult (by decide) execResult_tvStdB

/-- Settles O28: the result is the inverse of bit 4. -/
theorem prgRamPresentWhenBitFourClear : Obligations.PrgRamPresentWhenBitFourClear :=
  operationRule_of_execResult (by decide) execResult_prgRamPresent

/-- Settles O29: the result is bit 5 itself, in the literal sense. -/
theorem noBusConflictsWhenBitFiveSet : Obligations.NoBusConflictsWhenBitFiveSet :=
  operationRule_of_execResult (by decide) execResult_noBusConflicts

end Sys2Proof.Machine
end

section
/-! PROOFS. Family 45_tail_validator.md: IS_TAIL_VALID. -/

namespace Sys2Proof.Machine

/-- Settles O31: the result is the validity bit of the five comparisons of the tail, and the rest is the rule of an operation
without an operand. -/
theorem tailValidIffAllZero : Obligations.TailValidIffAllZero :=
  operationRule_of_execResult (by decide) fun s => by
    rw [execResult, tailValid_eq, zext32_boolCode_decide]

end Sys2Proof.Machine
end

section
/-! PROOFS. Family 60_exceptions.md: the two errors, each with its cause, its data and its priority; that no error depends on the
header or leaves anything behind; and where a command has no response. -/

namespace Sys2Proof.Machine

/-! ## A held command has one of three answers (R200 to R203) -/

section
variable {s : State} (held : s.inputsHeld = true)
include held

/-- A held legal word with 16 bytes is answered `OK`, with some data. -/
theorem step_of_legal_of_sixteen_le (hlegal : legalWord s.cmd = true) (hlen : 16 ≤ s.inLen) :
    ∃ d, step s = .next { s with rspStatus := 0#2, rspData := d } := by
  obtain ⟨i, hdec⟩ := (decodes_iff_legalWord s.cmd).2 hlegal
  exact ⟨execResult i s, (step_of_decoded held hdec).trans (exec_of_sixteen_le i hlen)⟩

/-- With fewer it is `TRUNCATED` (R200). -/
theorem step_of_legal_of_lt_sixteen (hlegal : legalWord s.cmd = true) (hshort : s.inLen < 16) :
    step s = .next { s with rspStatus := 1#2, rspData := BitVec.ofNat 32 (0x1000 + s.inLen) } := by
  obtain ⟨i, hdec⟩ := (decodes_iff_legalWord s.cmd).2 hlegal
  exact (step_of_decoded held hdec).trans (exec_of_lt_sixteen i hshort)

/-- A reserved word is `BAD_OP` whatever the length (R201, R203); a legal one is decided by the length. -/
theorem step_held_cases :
    (legalWord s.cmd = false ∧ step s = .next { s with rspStatus := 2#2, rspData := 0#32 }) ∨
    (legalWord s.cmd = true ∧ s.inLen < 16 ∧
      step s = .next { s with rspStatus := 1#2, rspData := BitVec.ofNat 32 (0x1000 + s.inLen) }) ∨
    (legalWord s.cmd = true ∧ 16 ≤ s.inLen ∧ ∃ d, step s = .next { s with rspStatus := 0#2, rspData := d }) := by
  cases hlegal : legalWord s.cmd with
  | false => exact .inl ⟨rfl, (badOp_of_not_legal hlegal).2 held⟩
  | true =>
    obtain hshort | hlen := Nat.lt_or_ge s.inLen 16
    · exact .inr (.inl ⟨rfl, hshort, step_of_legal_of_lt_sixteen held hlegal hshort⟩)
    · exact .inr (.inr ⟨rfl, hlen, step_of_legal_of_sixteen_le held hlegal hlen⟩)

end

/-- Settles O8: `Execute` answers every held command (R214), and the fetch refuses where the inputs change. -/
theorem noStepOnlyWhenInputsChange : Obligations.NoStepOnlyWhenInputsChange := by
  refine ⟨fun s held => ⟨_, step_eq_respond held⟩, fun s hchange => ?_⟩
  simp only [step, fetchCommand_of_not_held hchange]

/-! ## The data of `Truncated(got)` (R200) -/

/-- The layout of `needed` and `got` in the data word. -/
theorem truncated_data_fields {got : Nat} (hgot : got < 16) :
    ((BitVec.ofNat 32 (0x1000 + got)).extractLsb' 0 8).toNat = got ∧
    (BitVec.ofNat 32 (0x1000 + got)).extractLsb' 4 4 = 0#4 ∧
    (BitVec.ofNat 32 (0x1000 + got)).extractLsb' 8 8 = 0x10#8 ∧
    (BitVec.ofNat 32 (0x1000 + got)).extractLsb' 16 16 = 0#16 := by
  simp only [BitVec.toNat_eq, BitVec.extractLsb'_toNat, BitVec.toNat_ofNat, Nat.shiftRight_eq_div_pow]
  omega

/-- Settles O10: the step is the `TRUNCATED` response, and its word has the rule's layout. -/
theorem truncatedRecordsNeededAndGot : Obligations.TruncatedRecordsNeededAndGot := by
  intro s held hlegal hshort
  obtain ⟨hgot, hhigh, hneeded, htop⟩ := truncated_data_fields hshort
  exact ⟨_, step_of_legal_of_lt_sixteen held hlegal hshort, rfl, hgot, hhigh, hneeded, htop, fun h => by rw [h],
    fun h => by rw [h]⟩

/-! ## The cause and the priority of each error (R201 to R203) -/

/-- Settles O11: of the three answers only a reserved word's has status 2, and the reserved words are the rule's two kinds. -/
theorem badOpExactlyForReservedWords : Obligations.BadOpExactlyForReservedWords := by
  intro s held
  rw [← legalWord_eq_false_iff]
  obtain ⟨hill, hstep⟩ | ⟨hlegal, -, hstep⟩ | ⟨hlegal, -, d, hstep⟩ := step_held_cases held
  · exact ⟨_, hstep, by simp [hill], fun _ => rfl⟩
  · exact ⟨_, hstep, by simp [hlegal], by simp⟩
  · exact ⟨_, hstep, by simp [hlegal], by simp⟩

/-- Settles O12: a reserved word is answered without a look at the length, which decides only for a legal word. -/
theorem badOpBeforeTruncated : Obligations.BadOpBeforeTruncated :=
  fun _ held hshort =>
    ⟨fun hill => (badOp_of_not_legal hill).2 held, fun hlegal => step_of_legal_of_lt_sixteen held hlegal hshort⟩

/-- Settles O13: the three answers have three statuses, and their causes exclude each other. -/
theorem onlyTwoErrors : Obligations.OnlyTwoErrors := by
  intro s held
  obtain ⟨hill, hstep⟩ | ⟨hlegal, hshort, hstep⟩ | ⟨hlegal, hlen, d, hstep⟩ := step_held_cases held
  · exact ⟨_, hstep, by simp [hill], by simp [hill], by simp [hill]⟩
  · exact ⟨_, hstep, by simp [hshort], by simp [hlegal, hshort], by simp [hlegal]⟩
  · exact ⟨_, hstep, by simp [hlegal, hlen], by simp [hlen], by simp [hlegal]⟩

/-! ## An error shows no header and leaves nothing (R204, R206) -/

/-- `Execute` reads the bus only for an `OK` response. -/
theorem respond_eq_of_error {w : CommandWord} {hdr : BitVec 128} {len : Nat} (herr : (respond w hdr len).1 ≠ 0#2)
    (hdr' : BitVec 128) : respond w hdr len = respond w hdr' len := by
  rw [respond_eq] at herr
  rw [respond_eq, respond_eq]
  split_ifs at herr ⊢
  case neg => exact absurd rfl herr
  all_goals rfl

/-- Settles O14: an error is `Execute`'s answer before it reads the bus. -/
theorem errorsCarryNoView : Obligations.ErrorsCarryNoView := by
  intro s t s' hs ht hcmd hlen hstep herr
  obtain rfl := Host.Outcome.next.inj ((step_eq_respond hs).symm.trans hstep)
  apply sameResponse_step hs ht
  rw [← hcmd, ← hlen]
  exact respond_eq_of_error herr t.inHdr

/-- Once the host has driven all three inputs, nothing of the state before reaches the response (10_state.md R31). -/
theorem sameResponse_step_of_driven (s t : State) (bus : BitVec 128) (n : Nat) (w : CommandWord) :
    SameResponse (step (((s.driveHdr bus).driveLen n).present w)) (step (((t.driveHdr bus).driveLen n).present w)) :=
  sameResponse_step rfl rfl (by simp)

/-- Settles O15: after any step, one that ended in an error included, the driven inputs alone decide the response. -/
theorem errorsLeaveNothingBehind : Obligations.ErrorsLeaveNothingBehind :=
  fun _ t u bus n w _ _ => sameResponse_step_of_driven t u bus n w

end Sys2Proof.Machine
end

section
/-! PROOFS. Family 70_reset_and_hazards.md: what a host that meets its duties is answered, and that reset changes no response. -/

namespace Sys2Proof.Machine

/-! ## An instruction and `Execute` (10_state.md R33; 30_encoding.md R70) -/

/-- An instruction answers as `Execute` answers its word on the ports, held or not, and nothing but the outputs changes. -/
theorem exec_eq_respond (i : Instr) (s : State) :
    exec i s = .next { s with
      rspStatus := (respond (encode i) s.inHdr s.inLen).1
      rspData := (respond (encode i) s.inHdr s.inLen).2 } := by
  rw [respond_of_decoded (decodeCommand_encode i)]
  obtain hshort | hlen := Nat.lt_or_ge s.inLen 16
  · rw [exec_of_lt_sixteen i hshort, if_pos hshort]
  · rw [exec_of_sixteen_le i hlen, if_neg (Nat.not_lt.2 hlen), ← execResult_toNat, BitVec.ofNat_toNat,
      BitVec.setWidth_eq]

/-- Below 16 bytes `Execute` answers without a look at the bus (60_exceptions.md R204). -/
theorem respond_eq_of_lt_sixteen (w : CommandWord) {len : Nat} (hshort : len < 16) (hdr hdr' : BitVec 128) :
    respond w hdr len = respond w hdr' len := by
  simp only [respond_eq, if_pos hshort]

/-! ## A buffer on the ports (70_reset_and_hazards.md R235 duties 1 and 2) -/

/-- The first 16 bytes of a buffer as a bus; a byte that the buffer does not have is 0. -/
def bufferBus (buf : List Byte) : BitVec 128 := packBus fun k => buf.getD k.toNat 0#8

/-- A short buffer's length always fits the port, so duty 1 shows it as it is. -/
theorem ShowsBuffer.inLen_eq_of_lt_sixteen {buf : List Byte} {s : State} (h : ShowsBuffer buf s)
    (hshort : buf.length < 16) : s.inLen = buf.length := by
  obtain ⟨-, hfits, -⟩ := h
  have := thirtyTwo_le_two_pow_lenW
  exact hfits (by omega)

/-- A full buffer leaves no lane free, so duty 2 fixes the whole bus. -/
theorem ShowsBuffer.inHdr_eq_bufferBus {buf : List Byte} {s : State} (h : ShowsBuffer buf s)
    (hlen : 16 ≤ buf.length) : s.inHdr = bufferBus buf := by
  obtain ⟨hlanes, -, -⟩ := h
  refine packBus_inj.2 fun i => hlanes i _ ?_
  have hi : i.toNat < buf.length := i.isLt.trans_le hlen
  rw [List.getElem?_eq_getElem hi, List.getD_eq_getElem buf 0#8 hi]

/-- What duties 1 and 2 leave free reaches no response: below 16 bytes the lanes are not read, and from 16 on the length is
only compared. -/
theorem ShowsBuffer.respond_eq {buf : List Byte} {s : State} (h : ShowsBuffer buf s) (w : CommandWord) :
    respond w s.inHdr s.inLen = respond w (bufferBus buf) buf.length := by
  obtain hshort | hlen := Nat.lt_or_ge buf.length 16
  · rw [h.inLen_eq_of_lt_sixteen hshort]
    exact respond_eq_of_lt_sixteen w hshort _ _
  · rw [h.inHdr_eq_bufferBus hlen]
    exact respond_eq_of_sixteen_le w _ (h.sixteen_le hlen) hlen

/-- Settles O43: the instruction is `Execute` on the ports, and on the ports that show a buffer `Execute` sees the buffer alone. -/
theorem bufferDecodesAsTheSourceDoes : Obligations.BufferDecodesAsTheSourceDoes := by
  intro buf s hshow i
  rw [exec_eq_respond, hshow.respond_eq]
  rfl

/-! ## Reset (R230) -/

/-- Settles O42: the driven inputs decide the response on every state, the one after reset included. -/
theorem resetChangesNoResponse : Obligations.ResetChangesNoResponse :=
  fun s bus n w => sameResponse_step_of_driven State.reset s bus n w

end Sys2Proof.Machine
end
